-- ==== Sys2Proof/Word.lean ====
section
/-! DEFINITION. The word types of the engine: bytes, the two word widths (spec/00_scope.md R6, R7) and the
word tuples a hash state or a block holds (R2, spec/10_state.md R23). -/

namespace Sys2Proof

/-- A byte (R50). -/
abbrev Byte := BitVec 8

/-- A 32-bit word, unsigned (R7). -/
abbrev W32 := BitVec 32

/-- A 64-bit word, unsigned (R7). -/
abbrev W64 := BitVec 64

/-- The byte counter `total_length`, a word of `LEN_W = 64` bits (R6, R26). -/
abbrev ByteCount := BitVec 64

/-- Four 32-bit words in the order `w1, w2, w3, w4`: the tuple of `V128X86` (R2). -/
@[ext]
structure Quad where
  w1 : W32
  w2 : W32
  w3 : W32
  w4 : W32
  deriving DecidableEq, Repr

/-- Two 64-bit words in the order `w1, w2`: the tuple of `V128X64` (R2). -/
@[ext]
structure Pair where
  w1 : W64
  w2 : W64
  deriving DecidableEq, Repr

/-- A word tuple in the shape of one variant: a hash state `(h1 ..)` (R23) or a block `(k1 ..)` (R110). -/
inductive WordTuple where
  /-- `V32`: one word. -/
  | v32 (w : W32)
  /-- `V128X86`: four words. -/
  | v128x86 (q : Quad)
  /-- `V128X64`: two words. -/
  | v128x64 (p : Pair)
  deriving DecidableEq, Repr

end Sys2Proof
end

