-- ==== Sys2Proof/Config.lean ====
section
/-! DEFINITION. What is fixed for the engine: the closed set of variants (spec/00_scope.md R2) and the parameters of
R6 that the command framing uses. The model has no free value: R15 says that no command yields an undefined value.
`HOST_NATIVE_64` (R6, OPEN) is an argument of the assembler (Sys2Proof/Machine/Assembler.lean), never a constant. -/

namespace Sys2Proof

/-- The three variants, a closed set (R2). -/
inductive Variant where
  /-- the 32-bit variant -/
  | v32
  /-- the 128-bit variant with four 32-bit words -/
  | v128x86
  /-- the 128-bit variant with two 64-bit words -/
  | v128x64
  deriving DecidableEq, Repr

/-- `HDR`, the command header length in bytes (R6, R80). -/
abbrev Config.headerBytes : Nat := 5

/-- `IMM_W`, the width of the command immediate: a chunk has fewer than `2 ^ immBits` bytes (R6, R82). -/
abbrev Config.immBits : Nat := 32

end Sys2Proof
end

