-- ==== Sys2Proof/Syntax.lean ====
section
/-! DEFINITION. The commands: one constructor per row of spec/opcode_table.json (spec/30_encoding.md R83). -/

namespace Sys2Proof

/-- The six commands (R83). -/
inductive Instr where
  /-- `INIT.M32 seed` (R230). -/
  | initM32 (seed : W32)
  /-- `INIT.M128X86 seed` (R231). -/
  | initM128x86 (seed : W32)
  /-- `INIT.M128X64 seed` (R232). -/
  | initM128x64 (seed : W32)
  /-- `APPEND n, payload` (R160): `n` is the payload's length, payload byte `i` is `SRC[i]` (R85). -/
  | append (payload : List Byte)
  /-- `FINALIZE dlen` (R190): `dlen` is the length in bytes of the destination the host lends. -/
  | finalize (dlen : W32)
  /-- `HSIZE` (R234): its `imm32` is 0; any other value is no encoding of it (R86). -/
  | hsize
  deriving DecidableEq, Repr

end Sys2Proof
end

