-- ==== Sys2Proof/WellFormed.lean ====
section
/-! DEFINITION. Which commands have an encoding (spec/30_encoding.md R82): the payload length of an APPEND fits
`imm32`. Every seed and every `dlen` is legal (R86). -/

namespace Sys2Proof

/-- The command can be encoded: `n = len(payload)` fits the 32 bits of `imm32` (R82). -/
def Instr.wf : Instr → Bool
  | .initM32 _ => true
  | .initM128x86 _ => true
  | .initM128x64 _ => true
  | .append payload => decide (payload.length < 2 ^ Config.immBits)
  | .finalize _ => true
  | .hsize => true

end Sys2Proof
end

