-- ==== Sys2Proof/Decode.lean ====
section
/-! DEFINITION. Little-endian bytes (spec/00_scope.md R13), the decoder of the command stream, total on any byte
string and rejecting by name (spec/30_encoding.md R80 to R87, R93), and the encoder written from the same table. -/

namespace Sys2Proof

/-- `le(b)`: byte 0 is the least significant byte (R13). -/
def le : List Byte → Nat
  | [] => 0
  | b :: rest => b.toNat + 256 * le rest

/-- `bytes_n(v)`: byte `i` is `v[8*i+7 : 8*i]` (R13). -/
def bytesOf : Nat → Nat → List Byte
  | 0, _ => []
  | n + 1, v => BitVec.ofNat 8 v :: bytesOf n (v / 256)

/-- What the decoder finds at the front of the stream (R93). -/
inductive Decoded where
  /-- the stream ends inside a header or a payload (R91) -/
  | incomplete
  /-- an illegal encoding (R86): the five header bytes (R250) and the stream after them (R84) -/
  | illegal (header : List Byte) (rest : List Byte)
  /-- a command and the stream after it -/
  | command (i : Instr) (rest : List Byte)
  deriving DecidableEq, Repr

/-- Select the command by opcode (R83): `imm` is the header's `imm32`, `hdr` its five bytes, `rest` the stream after it. -/
def decodeHeader (op : Byte) (imm : W32) (hdr rest : List Byte) : Decoded :=
  if op = 0x10 then .command (.initM32 imm) rest
  else if op = 0x11 then .command (.initM128x86 imm) rest
  else if op = 0x12 then .command (.initM128x64 imm) rest
  else if op = 0x20 then
    if imm.toNat ≤ rest.length then
      .command (.append (rest.take imm.toNat)) (rest.drop imm.toNat)
    else .incomplete
  else if op = 0x30 then .command (.finalize imm) rest
  else if op = 0x40 then
    if imm = 0 then .command .hsize rest else .illegal hdr rest
  else .illegal hdr rest

/-- The decoder: total on any byte string (R93). `imm32 = le32(header bytes 1..4)` (R82). -/
def decode : List Byte → Decoded
  | b0 :: b1 :: b2 :: b3 :: b4 :: rest =>
    decodeHeader b0 (BitVec.ofNat 32 (le [b1, b2, b3, b4])) [b0, b1, b2, b3, b4] rest
  | _ => .incomplete

/-- The opcode of a command (R83). -/
def opcodeOf : Instr → Byte
  | .initM32 _ => 0x10
  | .initM128x86 _ => 0x11
  | .initM128x64 _ => 0x12
  | .append _ => 0x20
  | .finalize _ => 0x30
  | .hsize => 0x40

/-- The value of a command's `imm32` (R82). -/
def immOf : Instr → Nat
  | .initM32 seed => seed.toNat
  | .initM128x86 seed => seed.toNat
  | .initM128x64 seed => seed.toNat
  | .append payload => payload.length
  | .finalize dlen => dlen.toNat
  | .hsize => 0

/-- The payload of a command: only APPEND has one (R84, R85). -/
def payloadOf : Instr → List Byte
  | .initM32 _ => []
  | .initM128x86 _ => []
  | .initM128x64 _ => []
  | .append payload => payload
  | .finalize _ => []
  | .hsize => []

/-- The bytes of a command in stream order: opcode, `bytes_4(imm32)`, payload (R81, R88). -/
def encode (i : Instr) : List Byte :=
  opcodeOf i :: (bytesOf 4 (immOf i) ++ payloadOf i)

/-- The header value `cw = le(header bytes 0..4)` of a command (R81). -/
def headerWord (i : Instr) : Nat :=
  le ((encode i).take Config.headerBytes)

/-- The stream bytes of an instruction whose bits are `w`, bit 0 the least significant of the first byte: the
five header bytes and, for APPEND, its `imm32` payload bytes, every bit above `nbits` zero. -/
def tableBytes (nbits w : Nat) : List Byte :=
  let v := w % 2 ^ nbits
  let payloadLen := if v % 256 = 0x20 then v / 256 % 2 ^ 32 else 0
  bytesOf Config.headerBytes v ++ bytesOf payloadLen (v / 2 ^ 40)

/-- The command the decoder reads from an instruction whose bits are `w`, numbered as spec/opcode_table.json
numbers them (`cw`, R81). -/
def decodeTableWord (nbits w : Nat) : Option Instr :=
  match decode (tableBytes nbits w) with
  | .command i _ => some i
  | .illegal _ _ => none
  | .incomplete => none

end Sys2Proof
end

