-- ==== Sys2Proof/Machine/Operands.lean ====
section
/-! DEFINITION. How a command's bytes become operands: the sizes of each variant (spec/00_scope.md R2, R6), byte-space
accesses (R14, spec/20_memory.md R50), rotation (R11), the block codec (spec/40_block_codec.md R110 to R117) and the
initial hash state (spec/10_state.md R24). -/

namespace Sys2Proof.Machine

/-- `W(v)`, the word width in bits (R2, R6). -/
def wordBits : Variant → Nat
  | .v32 => 32
  | .v128x86 => 32
  | .v128x64 => 64

/-- `NW(v)`, words per state and per block (R2, R6). -/
def numWords : Variant → Nat
  | .v32 => 1
  | .v128x86 => 4
  | .v128x64 => 2

/-- `BS(v)`, the block size in bytes (R2, R6). -/
def blockSize : Variant → Nat
  | .v32 => 4
  | .v128x86 => 16
  | .v128x64 => 16

/-- `HS(v)`, the digest length in bytes; a function of its own (R6, R240). -/
def hashSize : Variant → Nat
  | .v32 => 4
  | .v128x86 => 16
  | .v128x64 => 16

/-- The 2-bit code of a variant; 3 is unused (R21). -/
def variantCode : Variant → BitVec 2
  | .v32 => 0
  | .v128x86 => 1
  | .v128x64 => 2

/-- The variant whose shape a word tuple has (R23). -/
def shapeOf : WordTuple → Variant
  | .v32 _ => .v32
  | .v128x86 _ => .v128x86
  | .v128x64 _ => .v128x64

/-- `MemRead(space, addr, n)`: the bytes at indices `addr .. addr+n-1` (R14). An index at or beyond the space's
length holds no byte and gives none. -/
def memRead (space : List Byte) (addr n : Nat) : List Byte :=
  (space.drop addr).take n

/-- `MemWrite(space, addr, n, b)` with `n = len(b)`: `b` at indices `addr .. addr+n-1` (R14). -/
def memWrite (space : List Byte) (addr : Nat) (b : List Byte) : List Byte :=
  space.take addr ++ b ++ space.drop (addr + b.length)

/-- `rotl_N(x, r) = (x << r) | (x >> (N - r))` (R11). -/
def rotl {n : Nat} (x : BitVec n) (r : Nat) : BitVec n :=
  (x <<< r) ||| (x >>> (n - r))

/-- `RDPART(b)`: the bytes present, little-endian, zero-extended to `W` bits (R117); on `W/8` bytes it is the
full-word read of `RDBLK` (R111 to R113). -/
def readWord (w : Nat) (b : List Byte) : BitVec w :=
  BitVec.ofNat w (le b)

/-- `bytes_{W/8}(x)`: a word's bytes, least significant first (R13, R52). -/
def writeWord {w : Nat} (x : BitVec w) : List Byte :=
  bytesOf (w / 8) x.toNat

/-- `RDBLK.V32(b)` (R111). -/
def rdblkV32 (b : List Byte) : W32 :=
  readWord 32 (memRead b 0 4)

/-- `RDBLK.V128X86(b)` (R112). -/
def rdblkV128x86 (b : List Byte) : Quad where
  w1 := readWord 32 (memRead b 0 4)
  w2 := readWord 32 (memRead b 4 4)
  w3 := readWord 32 (memRead b 8 4)
  w4 := readWord 32 (memRead b 12 4)

/-- `RDBLK.V128X64(b)` (R113). -/
def rdblkV128x64 (b : List Byte) : Pair where
  w1 := readWord 64 (memRead b 0 8)
  w2 := readWord 64 (memRead b 8 8)

/-- `RDBLK_v(b)` (R110). -/
def rdblk (v : Variant) (b : List Byte) : WordTuple :=
  match v with
  | .v32 => .v32 (rdblkV32 b)
  | .v128x86 => .v128x86 (rdblkV128x86 b)
  | .v128x64 => .v128x64 (rdblkV128x64 b)

/-- `WRWORDS.V32(h1)` (R114). -/
def wrwordsV32 (w : W32) : List Byte :=
  writeWord w

/-- `WRWORDS.V128X86(h1,h2,h3,h4)` (R115). -/
def wrwordsV128x86 (q : Quad) : List Byte :=
  writeWord q.w1 ++ writeWord q.w2 ++ writeWord q.w3 ++ writeWord q.w4

/-- `WRWORDS.V128X64(h1,h2)` (R116). -/
def wrwordsV128x64 (p : Pair) : List Byte :=
  writeWord p.w1 ++ writeWord p.w2

/-- `WRWORDS_v(h)` (R207). -/
def wrwords : WordTuple → List Byte
  | .v32 w => wrwordsV32 w
  | .v128x86 q => wrwordsV128x86 q
  | .v128x64 p => wrwordsV128x64 p

/-- `INITSTATE(v, seed)`: every state word is the seed, zero-extended to the word width (R24). -/
def initState (v : Variant) (seed : W32) : WordTuple :=
  match v with
  | .v32 => .v32 seed
  | .v128x86 => .v128x86 ⟨seed, seed, seed, seed⟩
  | .v128x64 => .v128x64 ⟨seed.setWidth 64, seed.setWidth 64⟩

end Sys2Proof.Machine
end

