-- ==== Sys2Proof/Machine/State.lean ====
section
/-! DEFINITION. The state of the engine as plain data (spec/10_state.md R20), the response log's records
(spec/30_encoding.md R92, spec/60_exceptions.md R250), the reasons a step can stop, and the state after hardware
reset (spec/10_state.md R35, spec/70_reset_and_hazards.md R280). -/

namespace Sys2Proof.Machine

/-- The three fault kinds (R250). -/
inductive FaultKind where
  /-- code 1: an illegal encoding -/
  | illegalCommand
  /-- code 2: APPEND, FINALIZE or HSIZE with `valid = 0` -/
  | noInstance
  /-- code 3: FINALIZE with `dlen != HS(variant)` -/
  | destLength
  deriving DecidableEq, Repr

/-- A fault with the information R250 records with it (R252). -/
inductive FaultRecord where
  /-- the five header bytes -/
  | illegalCommand (header : List Byte)
  /-- the opcode -/
  | noInstance (opcode : Byte)
  /-- `dlen` and `HS(variant)` -/
  | destLength (dlen : W32) (hashSize : Nat)
  deriving DecidableEq, Repr

/-- One record of the response log (R92). -/
inductive Response where
  /-- `Digest(d)`: the `HS` bytes FINALIZE writes to `DST[0 .. HS-1]` -/
  | digest (d : List Byte)
  /-- `Size(s)`: one byte -/
  | size (s : Byte)
  /-- `Fault(kind)` with its recorded information -/
  | fault (r : FaultRecord)
  deriving DecidableEq, Repr

/-- The engine: the instance (R20), the response log (R92) and the command stream not yet consumed (R80). -/
@[ext]
structure State where
  /-- 1 when an instance has been created since hardware reset (R29) -/
  valid : Bool
  /-- 1 once a fault has been raised; sticky (R30) -/
  fault : Bool
  /-- the code of the latched fault, 1 to 3 (R30, R250) -/
  faultKind : BitVec 2
  /-- fixed for the lifetime of an instance (R21) -/
  variant : Variant
  /-- fixed for the lifetime of an instance (R22) -/
  seed : W32
  /-- the hash words `(h1 .. h_NW)`; in a created instance they have the shape of `variant` (R23) -/
  h : WordTuple
  /-- bytes appended since the last instance reset, modulo `2^64` (R26) -/
  totalLength : ByteCount
  /-- `CARRY[0 .. carry_len-1]`, oldest byte first; its length is `carry_len` (R27, R37) -/
  carry : List Byte
  /-- the response log, oldest record first (R92) -/
  log : List Response
  /-- the bytes of the command stream the host has presented and the engine has not consumed (R80) -/
  stream : List Byte
  deriving DecidableEq, Repr

/-- The reasons the engine stops. -/
inductive Fault where
  /-- Raised by `step` and by every command while `fault = 1`: no command has a step until hardware reset (R254).
  Safe: the engine is stuck, as the spec says. -/
  | latched
  deriving DecidableEq, Repr

/-- The reasons there is nothing to execute. -/
inductive Refusal where
  /-- Raised by no meaning: the answer of an arm that is not modelled yet. Safe. -/
  | notModelled (mnemonic : String)
  /-- Raised by `step` when the stream is exhausted: the run has ended (R91). Safe. -/
  | noCommand
  /-- Raised by `step` when the stream ends inside a header or a payload: that command was never presented and
  takes no step (R91). Safe. -/
  | incompleteCommand
  deriving DecidableEq, Repr

/-- What executing one command or one step answers (R15). -/
abbrev Result := Host.Outcome State Fault Refusal

/-- The engine after hardware reset: `valid = 0`, `fault = 0`, the log empty (R35, R280), nothing presented.
DESIGN CHOICE (log entries 3 and 4): the elements R35 leaves unspecified hold named values here; while `valid = 0`
no command reads them (R29). Unsafe only for a claim that reads such an element before an INIT. -/
def State.reset : State where
  valid := false
  fault := false
  faultKind := 0
  variant := .v32
  seed := 0
  h := .v32 0
  totalLength := 0
  carry := []
  log := []
  stream := []

end Sys2Proof.Machine
end

