-- ==== Sys2Proof/Machine/Ops.lean ====
section
/-! DEFINITION. The named operations over the state: responding (spec/30_encoding.md R92), raising a fault, the one
shared exception entry (spec/60_exceptions.md R252; there is no return, R258), creating an instance
(spec/44_lifecycle.md R233), the instance reset (spec/43_finalize.md R209), reading one byte of CARRY and hardware
reset (spec/70_reset_and_hazards.md R280). -/

namespace Sys2Proof.Machine

/-- `carry_len` (R27). -/
def carryLen (s : State) : Nat :=
  s.carry.length

/-- The byte at index `addr` of `CARRY`; an index at or beyond `carry_len` holds no architectural byte (R37). -/
def readCarry (s : State) (addr : Nat) : Option Byte :=
  s.carry[addr]?

/-- The carry holds fewer bytes than a block (R27): the canonical form of the CARRY space. -/
def carryWf (v : Variant) (carry : List Byte) : Bool :=
  decide (carry.length < blockSize v)

/-- `respond(x)`: append the record to the response log (R14, R92). -/
def respond (r : Response) (s : State) : State :=
  { s with log := s.log ++ [r] }

/-- The kind of a recorded fault (R250). -/
def faultKindOf : FaultRecord → FaultKind
  | .illegalCommand _ => .illegalCommand
  | .noInstance _ => .noInstance
  | .destLength _ _ => .destLength

/-- The numeric code of a fault kind (R250). -/
def faultCode : FaultKind → BitVec 2
  | .illegalCommand => 1
  | .noInstance => 2
  | .destLength => 3

/-- `raise Fault(kind)`: latch `fault` and `fault_kind`, log the record, change nothing else (R252). -/
def raiseFault (r : FaultRecord) (s : State) : State :=
  respond (.fault r) { s with fault := true, faultKind := faultCode (faultKindOf r) }

/-- `INIT(v, s)`: create an instance (R233). -/
def createInstance (v : Variant) (seed : W32) (s : State) : State :=
  { s with
    valid := true
    variant := v
    seed := seed
    h := initState v seed
    totalLength := 0
    carry := [] }

/-- The instance reset at the end of FINALIZE (R209, R283). -/
def resetInstance (s : State) : State :=
  { s with
    h := initState s.variant s.seed
    totalLength := 0
    carry := [] }

/-- The command stream after some of it is consumed (R80). -/
def withStream (bytes : List Byte) (s : State) : State :=
  { s with stream := bytes }

/-- Hardware reset, an event the host may raise between commands (R65, R280, R281): all state is lost. What the
host has presented and the engine has not consumed is the host's, and stays (log entry 11). -/
def hardwareReset (s : State) : State :=
  withStream s.stream State.reset

end Sys2Proof.Machine
end

