-- ==== Sys2Proof/Machine/Flags.lean ====
section
/-! DEFINITION. The engine has no flags or condition codes (spec/10_state.md R32). Its two status bits `valid` and
`fault` gate every command; this file holds those two checks, in the order of spec/60_exceptions.md R255. -/

namespace Sys2Proof.Machine

/-- Check (0) of R255: while `fault = 1` no command has a step (R254). -/
def whenRunning (s : State) (k : Result) : Result :=
  if s.fault then .fault .latched else k

/-- Check (2) of R255: with `valid = 0` the command raises `NoInstance`, recording its opcode (R29, R250). -/
def whenInstance (op : Byte) (s : State) (k : Result) : Result :=
  if s.valid then k else .next (raiseFault (.noInstance op) s)

end Sys2Proof.Machine
end

