-- ==== Sys2Proof/Machine/Mixer.lean ====
section
/-! DEFINITION. The mixer: one full block folded into the hash state, in the three variants (spec/41_mixer.md R130 to
R139). All arithmetic is modulo the word width (spec/00_scope.md R9). -/

namespace Sys2Proof.Machine

/-- The constants of one line of a mixer (R131). -/
structure Line (w : Nat) where
  /-- the first multiplier `Ca_j` -/
  ca : BitVec w
  /-- the rotation of the block word `rk_j` -/
  rk : Nat
  /-- the second multiplier `Cb_j` -/
  cb : BitVec w
  /-- the rotation of the state word `rh_j` -/
  rh : Nat
  /-- the added constant `n_j` -/
  n : BitVec w
  deriving DecidableEq, Repr

/-- The line of `V32` (R132). -/
def lineV32 : Line 32 := ⟨0xcc9e2d51, 15, 0x1b873593, 13, 0xe6546b64⟩

/-- Line 1 of `V128X64` (R134). -/
def lineX64w1 : Line 64 := ⟨0x87c37b91114253d5, 31, 0x4cf5ad432745937f, 27, 0x52dce729⟩

/-- Line 2 of `V128X64` (R134). -/
def lineX64w2 : Line 64 := ⟨0x4cf5ad432745937f, 33, 0x87c37b91114253d5, 31, 0x38495ab5⟩

/-- Line 1 of `V128X86` (R137). -/
def lineX86w1 : Line 32 := ⟨0x239b961b, 15, 0xab0e9789, 19, 0x561ccd1b⟩

/-- Line 2 of `V128X86` (R137). -/
def lineX86w2 : Line 32 := ⟨0xab0e9789, 16, 0x38b34ae5, 17, 0x0bcaa747⟩

/-- Line 3 of `V128X86` (R137). -/
def lineX86w3 : Line 32 := ⟨0x38b34ae5, 17, 0xa1e38b93, 15, 0x96cd1c35⟩

/-- Line 4 of `V128X86` (R137). -/
def lineX86w4 : Line 32 := ⟨0xa1e38b93, 18, 0x239b961b, 13, 0x32ac3b17⟩

/-- `KSCR_{v,j}(k)`: multiply, rotate, multiply (R131, R136). -/
def kscr {w : Nat} (l : Line w) (k : BitVec w) : BitVec w :=
  rotl (k * l.ca) l.rk * l.cb

/-- The first half of a line: scramble the block word and fold it into the state word (R131). -/
def foldLine {w : Nat} (l : Line w) (h k : BitVec w) : BitVec w :=
  h ^^^ kscr l k

/-- The second half of a line in the 128-bit variants: rotate, add the next state word, multiply by 5 and add (R131). -/
def returnLine {w : Nat} (l : Line w) (h next : BitVec w) : BitVec w :=
  (rotl h l.rh + next) * 5 + l.n

/-- `MIX.V32(h1, k1)` (R133): its second half adds no neighbour. -/
def mixV32 (h k : W32) : W32 :=
  rotl (foldLine lineV32 h k) lineV32.rh * 5 + lineV32.n

/-- `MIX.V128X64` (R135): line 2 adds the new `h1` (R139). -/
def mixV128x64 (h k : Pair) : Pair :=
  let h1 := returnLine lineX64w1 (foldLine lineX64w1 h.w1 k.w1) h.w2
  let h2 := returnLine lineX64w2 (foldLine lineX64w2 h.w2 k.w2) h1
  ⟨h1, h2⟩

/-- `MIX.V128X86` (R138): lines 1 to 3 add the old next word, line 4 adds the new `h1` (R139). -/
def mixV128x86 (h k : Quad) : Quad :=
  let h1 := returnLine lineX86w1 (foldLine lineX86w1 h.w1 k.w1) h.w2
  let h2 := returnLine lineX86w2 (foldLine lineX86w2 h.w2 k.w2) h.w3
  let h3 := returnLine lineX86w3 (foldLine lineX86w3 h.w3 k.w3) h.w4
  let h4 := returnLine lineX86w4 (foldLine lineX86w4 h.w4 k.w4) h1
  ⟨h1, h2, h3, h4⟩

/-- `MIX_v(h, RDBLK_v(b))`, in the shape of `h` (R130): the one use the engine makes of a full block (R163, R164). -/
def mixBlock (h : WordTuple) (b : List Byte) : WordTuple :=
  match h with
  | .v32 w => .v32 (mixV32 w (rdblkV32 b))
  | .v128x86 q => .v128x86 (mixV128x86 q (rdblkV128x86 b))
  | .v128x64 p => .v128x64 (mixV128x64 p (rdblkV128x64 b))

end Sys2Proof.Machine
end

