-- ==== Sys2Proof/Machine/Append.lean ====
section
/-! DEFINITION. The meaning of APPEND and the carry-buffer manager, step by step as spec/42_append.md R160 gives it. -/

namespace Sys2Proof.Machine

/-- The working values inside one APPEND after step 1; `pos`, the chunk bytes consumed, is a temporary (R162). -/
structure AppendWork where
  h : WordTuple
  carry : List Byte
  pos : Nat
  deriving DecidableEq, Repr

/-- Step 1 (R162, R163): top up a non-empty carry from the front of the chunk; when it reaches a block, mix and
clear it. -/
def fillCarry (bs : Nat) (h : WordTuple) (carry src : List Byte) : AppendWork :=
  if carry.length > 0 then
    let t := min src.length (bs - carry.length)
    let filled := memWrite carry carry.length (memRead src 0 t)
    if filled.length = bs then ⟨mixBlock h (memRead filled 0 bs), [], t⟩
    else ⟨h, filled, t⟩
  else ⟨h, carry, 0⟩

/-- Step 2 (R164): mix `q` successive blocks of `bs` bytes from the front of `src`, in ascending order. -/
def mixBlocks (bs : Nat) : Nat → WordTuple → List Byte → WordTuple
  | 0, h, _ => h
  | q + 1, h, src => mixBlocks bs q (mixBlock h (memRead src 0 bs)) (src.drop bs)

/-- Step 3 (R165): copy the final bytes to the carry only when there are any; otherwise leave it as step 1 left it. -/
def keepRemainder (carry remainder : List Byte) : List Byte :=
  if remainder.length > 0 then (memWrite carry 0 remainder).take remainder.length else carry

/-- The four steps of APPEND on a created instance (R160, R162 to R166). -/
def appendChunk (src : List Byte) (s : State) : State :=
  let bs := blockSize s.variant
  let w := fillCarry bs s.h s.carry src
  let remLen := src.length - w.pos
  let remainderLen := remLen % bs
  let fullLen := remLen - remainderLen
  { s with
    h := mixBlocks bs (fullLen / bs) w.h (memRead src w.pos fullLen)
    totalLength := s.totalLength + BitVec.ofNat 64 src.length
    carry := keepRemainder w.carry (memRead src (w.pos + fullLen) remainderLen) }

/-- `APPEND n, payload` (R160, R161): no response. -/
def execAppend (payload : List Byte) (s : State) : Result :=
  whenRunning s <| whenInstance 0x20 s <| .next (appendChunk payload s)

end Sys2Proof.Machine
end

