-- ==== Sys2Proof/Machine/FinalMix.lean ====
section
/-! DEFINITION. The finalization mixer: tail fold, length injection, avalanche and cross-propagation
(spec/43_finalize.md R191 to R205). -/

namespace Sys2Proof.Machine

/-- The fold of sub-word `j` of the tail `t` into its state word (R191): nothing where the tail does not reach it,
the first half of the line on the bytes present where it does. -/
def foldTail {w : Nat} (l : Line w) (t : List Byte) (j : Nat) (h : BitVec w) : BitVec w :=
  let lo := (j - 1) * (w / 8)
  if t.length > lo then
    foldLine l h (readWord w (memRead t lo (min (t.length - lo) (w / 8))))
  else h

/-- `TAILFOLD.V32` (R192). -/
def tailFoldV32 (h : W32) (t : List Byte) : W32 :=
  foldTail lineV32 t 1 h

/-- `TAILFOLD.V128X64` (R193). -/
def tailFoldV128x64 (h : Pair) (t : List Byte) : Pair where
  w1 := foldTail lineX64w1 t 1 h.w1
  w2 := foldTail lineX64w2 t 2 h.w2

/-- `TAILFOLD.V128X86` (R194). -/
def tailFoldV128x86 (h : Quad) (t : List Byte) : Quad where
  w1 := foldTail lineX86w1 t 1 h.w1
  w2 := foldTail lineX86w2 t 2 h.w2
  w3 := foldTail lineX86w3 t 3 h.w3
  w4 := foldTail lineX86w4 t 4 h.w4

/-- `TAILFOLD_v(h, t)`, in the shape of `h` (R191). -/
def tailFold (h : WordTuple) (t : List Byte) : WordTuple :=
  match h with
  | .v32 w => .v32 (tailFoldV32 w t)
  | .v128x86 q => .v128x86 (tailFoldV128x86 q t)
  | .v128x64 p => .v128x64 (tailFoldV128x64 p t)

/-- `x ^ (x >> s)` with the logical shift of R10. -/
def xorShift {w : Nat} (x : BitVec w) (s : Nat) : BitVec w :=
  x ^^^ (x >>> s)

/-- `fmix32(h)`, the 32-bit avalanche (R197). -/
def fmix32 (h : W32) : W32 :=
  xorShift (xorShift (xorShift h 16 * 0x85ebca6b) 13 * 0xc2b2ae35) 16

/-- `fmix64(k)`, the 64-bit avalanche (R198). -/
def fmix64 (k : W64) : W64 :=
  xorShift (xorShift (xorShift k 33 * 0xff51afd7ed558ccd) 33 * 0xc4ceb9fe1a85ec53) 33

/-- `PROP.V128X86` (R201): `h1` takes all the words, each later word adds the new `h1`. -/
def propV128x86 (h : Quad) : Quad :=
  let h1 := h.w1 + h.w2 + h.w3 + h.w4
  ⟨h1, h.w2 + h1, h.w3 + h1, h.w4 + h1⟩

/-- `PROP.V128X64` (R202). -/
def propV128x64 (h : Pair) : Pair :=
  let h1 := h.w1 + h.w2
  ⟨h1, h.w2 + h1⟩

/-- `FINMIX.V32` (R203): a `W`-bit word receives `trunc_W(T)` (R200). -/
def finMixV32 (h : W32) (t : ByteCount) : W32 :=
  fmix32 (h ^^^ t.setWidth 32)

/-- `FINMIX.V128X86` (R204): length XOR, propagate, avalanche, propagate. -/
def finMixV128x86 (h : Quad) (t : ByteCount) : Quad :=
  let len : W32 := t.setWidth 32
  let p := propV128x86 ⟨h.w1 ^^^ len, h.w2 ^^^ len, h.w3 ^^^ len, h.w4 ^^^ len⟩
  propV128x86 ⟨fmix32 p.w1, fmix32 p.w2, fmix32 p.w3, fmix32 p.w4⟩

/-- `FINMIX.V128X64` (R205): length XOR, propagate, avalanche, propagate. -/
def finMixV128x64 (h : Pair) (t : ByteCount) : Pair :=
  let len : W64 := t.setWidth 64
  let p := propV128x64 ⟨h.w1 ^^^ len, h.w2 ^^^ len⟩
  propV128x64 ⟨fmix64 p.w1, fmix64 p.w2⟩

/-- `FINMIX_v(h, T)`, in the shape of `h` (R190 step 2). -/
def finMix (h : WordTuple) (t : ByteCount) : WordTuple :=
  match h with
  | .v32 w => .v32 (finMixV32 w t)
  | .v128x86 q => .v128x86 (finMixV128x86 q t)
  | .v128x64 p => .v128x64 (finMixV128x64 p t)

end Sys2Proof.Machine
end

