-- ==== Sys2Proof/Machine/Finalize.lean ====
section
/-! DEFINITION. The meaning of FINALIZE (spec/43_finalize.md R190, R207 to R210, spec/60_exceptions.md R251). -/

namespace Sys2Proof.Machine

/-- Steps 1 to 3 of FINALIZE: the digest of the instance as it stands (R190, R207). -/
def digestOf (s : State) : List Byte :=
  wrwords (finMix (tailFold s.h s.carry) s.totalLength)

/-- Check (3) of R255: FINALIZE runs only with `dlen = HS(variant)` and raises `DestLength` otherwise, before any
state is touched (R251). -/
def whenDestLength (dlen : W32) (s : State) (k : Result) : Result :=
  if dlen.toNat = hashSize s.variant then k
  else .next (raiseFault (.destLength dlen (hashSize s.variant)) s)

/-- `FINALIZE dlen` (R190): deliver the digest (R208) and reset the instance (R209). -/
def execFinalize (dlen : W32) (s : State) : Result :=
  whenRunning s <| whenInstance 0x30 s <| whenDestLength dlen s <|
    .next (resetInstance (respond (.digest (digestOf s)) s))

end Sys2Proof.Machine
end

