-- ==== Sys2Proof/Machine/Lifecycle.lean ====
section
/-! DEFINITION. The meanings of INIT.M32, INIT.M128X86, INIT.M128X64 and HSIZE (spec/44_lifecycle.md R230 to R235). -/

namespace Sys2Proof.Machine

/-- `INIT.M32 seed` (R230): legal whatever `valid` is (R235). -/
def execInitM32 (seed : W32) (s : State) : Result :=
  whenRunning s (.next (createInstance .v32 seed s))

/-- `INIT.M128X86 seed` (R231). -/
def execInitM128x86 (seed : W32) (s : State) : Result :=
  whenRunning s (.next (createInstance .v128x86 seed s))

/-- `INIT.M128X64 seed` (R232). -/
def execInitM128x64 (seed : W32) (s : State) : Result :=
  whenRunning s (.next (createInstance .v128x64 seed s))

/-- `HSIZE` (R234): `Size(HS(variant))` as one byte (R92); the instance is unchanged. -/
def execHsize (s : State) : Result :=
  whenRunning s <| whenInstance 0x40 s <|
    .next (respond (.size (BitVec.ofNat 8 (hashSize s.variant))) s)

end Sys2Proof.Machine
end

