-- ==== Sys2Proof/Machine/Dispatch.lean ====
section
/-! DEFINITION. One arm per command of spec/opcode_table.json: which meaning executes it. -/

namespace Sys2Proof.Machine

def exec (i : Instr) (s : State) : Host.Outcome State Fault Refusal :=
  match i with
  | .initM32 seed => Sys2Proof.Machine.execInitM32 seed s
  | .initM128x86 seed => Sys2Proof.Machine.execInitM128x86 seed s
  | .initM128x64 seed => Sys2Proof.Machine.execInitM128x64 seed s
  | .append payload => Sys2Proof.Machine.execAppend payload s
  | .finalize dlen => Sys2Proof.Machine.execFinalize dlen s
  | .hsize => Sys2Proof.Machine.execHsize s

end Sys2Proof.Machine
end

