-- ==== Sys2Proof/Machine/Step.lean ====
section
/-! DEFINITION. One step of the engine: take one command from the front of the stream and execute it
(spec/30_encoding.md R80, spec/00_scope.md R16). -/

namespace Sys2Proof.Machine

/-- One step. A latched fault comes before everything (R255 check 0, R254); an illegal encoding raises
`IllegalCommand` with its header consumed (R84, R86, R255 check 1); an exhausted stream and a stream that ends inside
a command have no step (R91). -/
def step (s : State) : Host.Outcome State Fault Refusal :=
  if s.fault then .fault .latched
  else
    match decode s.stream with
    | .command i rest => exec i (withStream rest s)
    | .illegal header rest => .next (raiseFault (.illegalCommand header) (withStream rest s))
    | .incomplete => .refused (if s.stream.isEmpty then .noCommand else .incompleteCommand)

/-- `s` with the instruction whose bits are `w` presented as the command stream, so that `step` runs exactly it
(log entry 6). -/
def State.withFetchWord (s : State) (nbits w : Nat) : State :=
  withStream (tableBytes nbits w) s

/-- The engine executing a sequence of commands, stopping at the first that has no step (R80, R91). -/
def execAll : List Instr → State → Result
  | [], s => .next s
  | i :: rest, s =>
    match exec i s with
    | .next t => execAll rest t
    | .fault r => .fault r
    | .refused r => .refused r

end Sys2Proof.Machine
end

