-- ==== Sys2Proof/Machine/Assembler.lean ====
section
/-! DEFINITION. The host's assembler: the pseudo-commands and their expansions (spec/30_encoding.md R89,
spec/44_lifecycle.md R236, R237) and the assembler's text (R88). The engine never sees any of it. What R88 leaves
open about white space and quoting is log entry 12. -/

namespace Sys2Proof.Machine

/-- One line of assembler (R88, R89). -/
inductive AsmLine where
  /-- a command of R88 -/
  | command (i : Instr)
  /-- `APPEND.S "text"` -/
  | appendS (text : List Char)
  /-- `FINALIZE.NEW`, the source's `finalize_to_new` (R236) -/
  | finalizeNew
  /-- `INIT.M128DEF seed`, the source's `create(seed, Default)` (R237) -/
  | initM128Def (seed : W32)
  /-- `HASH.<variant> seed, [bytes]` -/
  | hash (v : Variant) (seed : W32) (bytes : List Byte)
  deriving DecidableEq, Repr

/-- `INIT.<v> seed` (R83). -/
def initOf (v : Variant) (seed : W32) : Instr :=
  match v with
  | .v32 => .initM32 seed
  | .v128x86 => .initM128x86 seed
  | .v128x64 => .initM128x64 seed

/-- `FINALIZE HS(v)` (R89). -/
def finalizeOf (v : Variant) : Instr :=
  .finalize (BitVec.ofNat 32 (hashSize v))

/-- The ASCII codes of a text (R8, R89); none where a character has no ASCII code. -/
def asciiBytes : List Char → Option (List Byte)
  | [] => some []
  | c :: cs =>
    if c.toNat < 128 then (asciiBytes cs).map (BitVec.ofNat 8 c.toNat :: ·) else none

/-- The commands a line expands to (R89). `native64` is the model argument `HOST_NATIVE_64` (R237); `live` is the
variant of the most recent INIT in the program, which `FINALIZE.NEW` needs. -/
def expand (native64 : Bool) (live : Option Variant) : AsmLine → Option (List Instr)
  | .command i => some [i]
  | .appendS text => (asciiBytes text).map fun b => [.append b]
  | .finalizeNew => live.map fun v => [finalizeOf v]
  | .initM128Def seed => some [initOf (if native64 then .v128x64 else .v128x86) seed]
  | .hash v seed bytes => some [initOf v seed, .append bytes, finalizeOf v]

/-- The variant an INIT names (R21). -/
def variantOfInit : Instr → Option Variant
  | .initM32 _ => some .v32
  | .initM128x86 _ => some .v128x86
  | .initM128x64 _ => some .v128x64
  | .append _ => none
  | .finalize _ => none
  | .hsize => none

/-- The variant of the most recent INIT after some commands. -/
def liveAfter (live : Option Variant) : List Instr → Option Variant
  | [] => live
  | i :: rest => liveAfter (variantOfInit i <|> live) rest

/-- The commands of a program (R88, R89); none where a line has no expansion or a command no encoding. -/
def assembleFrom (native64 : Bool) (live : Option Variant) : List AsmLine → Option (List Instr)
  | [] => some []
  | l :: rest =>
    match expand native64 live l with
    | none => none
    | some is =>
      if is.all Instr.wf then (assembleFrom native64 (liveAfter live is) rest).map (is ++ ·)
      else none

/-- The bytes of a program in stream order (R80, R88). -/
def programBytes (is : List Instr) : List Byte :=
  is.flatMap encode

/-! The text of a line (R88). -/

/-- White space inside a line. -/
def isBlank (c : Char) : Bool :=
  c = ' ' || c = '\t' || c = '\r'

/-- `;` starts a comment (R88), but not inside a quoted text. -/
def stripComment (quoted : Bool) : List Char → List Char
  | [] => []
  | c :: cs =>
    if c = '"' then c :: stripComment (!quoted) cs
    else if c = ';' && !quoted then []
    else c :: stripComment quoted cs

/-- A text without white space at either end. -/
def trimBlanks (cs : List Char) : List Char :=
  ((cs.dropWhile isBlank).reverse.dropWhile isBlank).reverse

/-- The value of a digit in the given base. -/
def digitValue (base : Nat) (c : Char) : Option Nat :=
  let n := c.toNat
  let v :=
    if 48 ≤ n && n ≤ 57 then n - 48
    else if 97 ≤ n && n ≤ 102 then n - 87
    else if 65 ≤ n && n ≤ 70 then n - 55
    else base
  if v < base then some v else none

/-- The number a digit string spells, most significant digit first. -/
def digitsValue (base : Nat) : Nat → List Char → Option Nat
  | acc, [] => some acc
  | acc, c :: cs =>
    match digitValue base c with
    | some d => digitsValue base (acc * base + d) cs
    | none => none

/-- A decimal or `0x` hexadecimal number (R88) below `limit`. -/
def parseNumber (limit : Nat) (cs : List Char) : Option Nat :=
  let value :=
    match cs with
    | [] => none
    | ['0', 'x'] => none
    | '0' :: 'x' :: ds => digitsValue 16 0 ds
    | ds => digitsValue 10 0 ds
  value.filter (· < limit)

/-- A 32-bit operand: a seed or a `dlen` (R82). -/
def parseWord (cs : List Char) : Option W32 :=
  (parseNumber (2 ^ 32) cs).map (BitVec.ofNat 32)

/-- The parts of a text between commas. -/
def splitCommas : List Char → List (List Char)
  | [] => [[]]
  | c :: cs =>
    if c = ',' then [] :: splitCommas cs
    else
      match splitCommas cs with
      | [] => [[c]]
      | part :: parts => (c :: part) :: parts

/-- The bytes of the items of a list. -/
def parseItems : List (List Char) → Option (List Byte)
  | [] => some []
  | item :: items =>
    match parseNumber 256 (trimBlanks item), parseItems items with
    | some b, some bs => some (BitVec.ofNat 8 b :: bs)
    | _, _ => none

/-- A text without its last character, where that is `last`. -/
def dropLastChar (last : Char) (cs : List Char) : Option (List Char) :=
  match cs.reverse with
  | c :: rest => if c = last then some rest.reverse else none
  | [] => none

/-- `[b0, b1, ..., b(n-1)]`, or `[]` (R88). -/
def parseBytes : List Char → Option (List Byte)
  | '[' :: cs =>
    match dropLastChar ']' cs with
    | some inner =>
      if (trimBlanks inner).isEmpty then some [] else parseItems (splitCommas inner)
    | none => none
  | _ => none

/-- `"text"` (R89). -/
def parseText : List Char → Option (List Char)
  | '"' :: cs => (dropLastChar '"' cs).filter fun inner => !inner.contains '"'
  | _ => none

/-- `<seed>, [bytes]`, the operands of `HASH.<variant>` (R89). -/
def parseHash (v : Variant) (cs : List Char) : Option AsmLine :=
  match parseWord (trimBlanks (cs.takeWhile (· != ','))),
      parseBytes (trimBlanks ((cs.dropWhile (· != ',')).drop 1)) with
  | some seed, some bytes => some (.hash v seed bytes)
  | _, _ => none

/-- A mnemonic with its operand text (R88, R89). -/
def parseCommand (mnemonic operand : List Char) : Option AsmLine :=
  if mnemonic = "INIT.M32".toList then (parseWord operand).map fun n => .command (.initM32 n)
  else if mnemonic = "INIT.M128X86".toList then
    (parseWord operand).map fun n => .command (.initM128x86 n)
  else if mnemonic = "INIT.M128X64".toList then
    (parseWord operand).map fun n => .command (.initM128x64 n)
  else if mnemonic = "INIT.M128DEF".toList then (parseWord operand).map .initM128Def
  else if mnemonic = "APPEND".toList then (parseBytes operand).map fun b => .command (.append b)
  else if mnemonic = "APPEND.S".toList then (parseText operand).map .appendS
  else if mnemonic = "FINALIZE".toList then (parseWord operand).map fun n => .command (.finalize n)
  else if mnemonic = "FINALIZE.NEW".toList then
    if operand.isEmpty then some .finalizeNew else none
  else if mnemonic = "HSIZE".toList then if operand.isEmpty then some (.command .hsize) else none
  else if mnemonic = "HASH.M32".toList then parseHash .v32 operand
  else if mnemonic = "HASH.M128X86".toList then parseHash .v128x86 operand
  else if mnemonic = "HASH.M128X64".toList then parseHash .v128x64 operand
  else none

/-- One line of text: nothing for a blank or comment line, else one command or pseudo-command (R88). The outer
`none` refuses a line that is neither. -/
def parseLine (text : List Char) : Option (List AsmLine) :=
  let cs := trimBlanks (stripComment false text)
  if cs.isEmpty then some []
  else
    (parseCommand (cs.takeWhile (!isBlank ·)) (trimBlanks (cs.dropWhile (!isBlank ·)))).map ([·])

/-- The lines of a program's text, in order. -/
def parseLines : List (List Char) → Option (List AsmLine)
  | [] => some []
  | l :: rest =>
    match parseLine l, parseLines rest with
    | some here, some later => some (here ++ later)
    | _, _ => none

/-- A program's text, one command per line, assembled to the bytes of its command stream (R88, R89). -/
def assembleText (native64 : Bool) (lines : List (List Char)) : Option (List Byte) :=
  match parseLines lines with
  | some ls => (assembleFrom native64 none ls).map programBytes
  | none => none

end Sys2Proof.Machine
end

