-- ==== Sys2Proof/Safety.lean ====
section
/-! DEFINITION. The terms the claims use: what a run without a fault is (spec/60_exceptions.md R254), the relations
that hold inside every created instance and in the response log, equality of instances (spec/10_state.md R37), and the
closed forms of what APPEND keeps of a message (spec/42_append.md R169) and of the whole digest
(spec/43_finalize.md R212). -/

namespace Sys2Proof.Machine

/-- No fault is latched: the premise of every claim about a command that executes (R254). -/
abbrev State.Running (s : State) : Prop :=
  s.fault = false

/-- An instance exists and no fault is latched: the phase "accumulating" (R38). -/
abbrev State.Live (s : State) : Prop :=
  s.fault = false ∧ s.valid = true

/-- In a created instance the hash words have the variant's shape (R23), the carry is shorter than a block (R27) and
`carry_len = total_length mod BS` (R28). Nothing is said while `valid = 0` (R29). -/
abbrev State.InstanceWf (s : State) : Prop :=
  s.valid = true →
    shapeOf s.h = s.variant ∧
    carryWf s.variant s.carry = true ∧
    carryLen s = s.totalLength.toNat % blockSize s.variant

/-- The record is a fault record (R92). -/
def isFaultRecord : Response → Bool
  | .digest _ => false
  | .size _ => false
  | .fault _ => true

/-- The fault record that ends a log, if one does. -/
def lastFault (log : List Response) : Option FaultRecord :=
  match log.getLast? with
  | some (.fault r) => some r
  | _ => none

/-- The response log agrees with the fault latch (R92, R252): no record before the last is a fault record, and the
last is one exactly while `fault = 1`, with the kind that is latched. -/
abbrev State.LogWf (s : State) : Prop :=
  (s.log.dropLast.all fun r => !isFaultRecord r) = true ∧
  (lastFault s.log).isSome = s.fault ∧
  ((lastFault s.log).all fun r => decide (s.faultKind = faultCode (faultKindOf r))) = true

/-- Equality of instances (R37): every element of the instance, `fault_kind` only where a fault is latched. -/
abbrev State.SameInstance (s t : State) : Prop :=
  s.valid = t.valid ∧ s.fault = t.fault ∧ (s.fault = true → s.faultKind = t.faultKind) ∧
  s.variant = t.variant ∧ s.seed = t.seed ∧ s.h = t.h ∧ s.totalLength = t.totalLength ∧ s.carry = t.carry

/-- Block `i` of a byte sequence (R169). -/
def blockAt (bs : Nat) (z : List Byte) (i : Nat) : List Byte :=
  memRead z (i * bs) bs

/-- The hash words after mixing every full block of `z`, in order (R169). -/
def mixMessage (bs : Nat) (h : WordTuple) (z : List Byte) : WordTuple :=
  (List.range (z.length / bs)).foldl (fun h i => mixBlock h (blockAt bs z i)) h

/-- The bytes of `z` after its last full block (R169). -/
def messageTail (bs : Nat) (z : List Byte) : List Byte :=
  z.drop (z.length / bs * bs)

/-- `H(v, s, M)`, the digest of a whole message in closed form (R212). -/
def oneShotDigest (v : Variant) (seed : W32) (m : List Byte) : List Byte :=
  wrwords (finMix (tailFold (mixMessage (blockSize v) (initState v seed) m) (messageTail (blockSize v) m))
    (BitVec.ofNat 64 m.length))

end Sys2Proof.Machine
end

