-- ==== Sys2Proof/Certificates/Slice0/Obligations.lean ====
section
/-! DEFINITION. The statements for the provers, each from the spec's numbered rules (OBLIGATIONS.json lists them). -/

open Sys2Proof Sys2Proof.Machine

/-! ## Encoding -/

/-- Every word that spec/95_test_vectors.md X1, X2 and X4 write out decodes as written there: the eleven rows of X1; the
stream of X2, command by command; the six illegal headers of X4 and the two that are legal although odd. -/
def Obligations.SpecWordsDecode : Prop :=
  (decode [0x10, 0x25, 0x01, 0x00, 0x00] = .command (.initM32 293) [] ∧
    decode [0x10, 0xff, 0xff, 0xff, 0xff] = .command (.initM32 0xffffffff) [] ∧
    decode [0x11, 0x00, 0x00, 0x00, 0x00] = .command (.initM128x86 0) [] ∧
    decode [0x12, 0x8c, 0xb2, 0x47, 0x97] = .command (.initM128x64 0x9747b28c) [] ∧
    decode [0x20, 0x06, 0x00, 0x00, 0x00, 0x01, 0x02, 0x03, 0x04, 0x05, 0x06] =
      .command (.append [1, 2, 3, 4, 5, 6]) [] ∧
    decode [0x20, 0x00, 0x00, 0x00, 0x00] = .command (.append []) [] ∧
    decode [0x20, 0x01, 0x00, 0x00, 0x00, 0x74] = .command (.append [0x74]) [] ∧
    decode [0x30, 0x04, 0x00, 0x00, 0x00] = .command (.finalize 4) [] ∧
    decode [0x30, 0x10, 0x00, 0x00, 0x00] = .command (.finalize 16) [] ∧
    decode [0x30, 0x03, 0x00, 0x00, 0x00] = .command (.finalize 3) [] ∧
    decode [0x40, 0x00, 0x00, 0x00, 0x00] = .command .hsize []) ∧
  (decode [0x10, 0x25, 0x01, 0x00, 0x00, 0x20, 0x02, 0x00, 0x00, 0x00, 0x30, 0x10, 0x30, 0x04, 0x00, 0x00, 0x00] =
      .command (.initM32 293) [0x20, 0x02, 0x00, 0x00, 0x00, 0x30, 0x10, 0x30, 0x04, 0x00, 0x00, 0x00] ∧
    decode [0x20, 0x02, 0x00, 0x00, 0x00, 0x30, 0x10, 0x30, 0x04, 0x00, 0x00, 0x00] =
      .command (.append [0x30, 0x10]) [0x30, 0x04, 0x00, 0x00, 0x00]) ∧
  (∀ hdr ∈ ([[0x00, 0x00, 0x00, 0x00, 0x00], [0xff, 0xff, 0xff, 0xff, 0xff], [0x13, 0x00, 0x00, 0x00, 0x00],
      [0x21, 0x00, 0x00, 0x00, 0x00], [0x40, 0x01, 0x00, 0x00, 0x00], [0x40, 0x00, 0x00, 0x00, 0x80]] :
      List (List Byte)), decode hdr = .illegal hdr []) ∧
  decode [0x30, 0x00, 0x00, 0x00, 0x00] = .command (.finalize 0) []

/-- Decoding an encoded well-formed command gives it back, with the rest of the stream untouched. -/
def Obligations.DecodeOfEncode : Prop :=
  ∀ (i : Instr) (rest : List Byte), i.wf = true → decode (encode i ++ rest) = .command i rest

/-- The decoder is total, as spec/30_encoding.md section 3 (its last rule, an inference the spec marks as its own) says:
"incomplete" exactly on the strings it names; otherwise a well-formed command whose encoding is the consumed part of the
string, or an illegal five-byte header. -/
def Obligations.DecoderTotalAndFaithful : Prop :=
  ∀ s : List Byte,
    (decode s = .incomplete ↔
      s.length < 5 ∨ (s.head? = some 0x20 ∧ s.length < 5 + le ((s.drop 1).take 4))) ∧
    (∀ i rest, decode s = .command i rest → i.wf = true ∧ encode i ++ rest = s) ∧
    (∀ hdr rest, decode s = .illegal hdr rest → hdr.length = 5 ∧ hdr ++ rest = s)

/-- Two different commands never share an encoding, not even with different streams after them. -/
def Obligations.EncodingsUnambiguous : Prop :=
  ∀ (i j : Instr) (r r' : List Byte), i.wf = true → j.wf = true →
    encode i ++ r = encode j ++ r' → i = j ∧ r = r'

/-- R86: exactly the unassigned opcodes and HSIZE with a non-zero `imm32` are illegal, whatever the `imm32`, and raise
`IllegalCommand`; a FINALIZE whose `dlen` is wrong is a legal encoding that raises `DestLength`. -/
def Obligations.IllegalEncodings : Prop :=
  (∀ (b0 b1 b2 b3 b4 : Byte) (rest : List Byte),
    (decode (b0 :: b1 :: b2 :: b3 :: b4 :: rest) = .illegal [b0, b1, b2, b3, b4] rest ↔
      b0 ∉ ([0x10, 0x11, 0x12, 0x20, 0x30, 0x40] : List Byte) ∨
        (b0 = 0x40 ∧ [b1, b2, b3, b4] ≠ [0, 0, 0, 0])) ∧
    ∀ s : State, s.Running → s.stream = b0 :: b1 :: b2 :: b3 :: b4 :: rest →
      (b0 ∉ ([0x10, 0x11, 0x12, 0x20, 0x30, 0x40] : List Byte) ∨
        (b0 = 0x40 ∧ [b1, b2, b3, b4] ≠ [0, 0, 0, 0])) →
      step s = .next { s with
        stream := rest, fault := true, faultKind := 1
        log := s.log ++ [.fault (.illegalCommand [b0, b1, b2, b3, b4])] }) ∧
  ∀ (s : State) (dlen : W32), s.Live → dlen.toNat ≠ hashSize s.variant →
    decode (encode (.finalize dlen)) = .command (.finalize dlen) [] ∧
    exec (.finalize dlen) s = .next { s with
      fault := true, faultKind := 3
      log := s.log ++ [.fault (.destLength dlen (hashSize s.variant))] }

/-- R81: the header read as a 40-bit little-endian value has the opcode in bits 7..0 and `imm32` in bits 39..8. -/
def Obligations.HeaderFields : Prop :=
  (∀ b0 b1 b2 b3 b4 : Byte,
    le [b0, b1, b2, b3, b4] < 2 ^ 40 ∧
    le [b0, b1, b2, b3, b4] % 2 ^ 8 = b0.toNat ∧
    le [b0, b1, b2, b3, b4] / 2 ^ 8 = le [b1, b2, b3, b4]) ∧
  ∀ i : Instr, i.wf = true →
    headerWord i % 2 ^ 8 = (opcodeOf i).toNat ∧ headerWord i / 2 ^ 8 = immOf i

/-! ## Stepping -/

/-- A step runs the decoded command: with no fault latched and a command at the front of the stream, `step` is `exec` of
that command on the state with the command's bytes consumed. -/
def Obligations.StepRunsDecoded : Prop :=
  ∀ (s : State) (i : Instr) (rest : List Byte), s.Running → decode s.stream = .command i rest →
    i.wf = true ∧ step s = exec i (withStream rest s)

/-- R254: while `fault = 1` no command has a step, whatever the stream holds, and only hardware reset clears `fault`,
which also destroys the instance. -/
def Obligations.NoStepWhileFaulted : Prop :=
  ∀ s : State,
    (s.fault = true → ∀ t, step s ≠ .next t ∧ ∀ i, exec i s ≠ .next t) ∧
    (hardwareReset s).fault = false ∧ (hardwareReset s).valid = false

/-- A stream that ends inside a command, or is exhausted, has no step (spec/30_encoding.md section 5). The two refusals'
names, and `Fault.latched` for the stuck engine, are the model's (log entries 2 and 7). -/
def Obligations.NoStepWithoutCommand : Prop :=
  ∀ s : State,
    (s.Running → s.stream = [] → step s = .refused .noCommand) ∧
    (s.Running → s.stream ≠ [] → decode s.stream = .incomplete →
      step s = .refused .incompleteCommand) ∧
    (s.fault = true → step s = .fault .latched)

/-- Stepping through the bytes of a sequence of well-formed commands executes exactly those commands in order: the same
final state with the stream consumed, or the same stop. -/
def Obligations.StreamRunsCommands : Prop :=
  ∀ (is : List Instr) (rest : List Byte) (s : State), (∀ i ∈ is, i.wf = true) →
    Sys2Proof.core.run is.length (withStream (programBytes is ++ rest) s) =
      match execAll is s with
      | .next t => .next (withStream rest t)
      | .fault r => .fault r
      | .refused r => .refused r

/-! ## INIT and HSIZE -/

/-- R230: `INIT.M32 seed`. -/
def Obligations.InitM32Creates : Prop :=
  ∀ (seed : W32) (s : State),
    encode (.initM32 seed) = 0x10 :: bytesOf 4 seed.toNat ∧
    (s.Running → exec (.initM32 seed) s = .next { s with
      valid := true, variant := .v32, seed := seed, h := .v32 seed, totalLength := 0, carry := [] }) ∧
    (s.fault = true → ∀ t, exec (.initM32 seed) s ≠ .next t)

/-- `INIT.M128X86 seed`. For a non-zero seed the four-fold copy is what the spec marks as from general knowledge
("for a non-zero seed the four-fold copy is [from general knowledge, not in source]"). -/
def Obligations.InitM128x86Creates : Prop :=
  ∀ (seed : W32) (s : State),
    encode (.initM128x86 seed) = 0x11 :: bytesOf 4 seed.toNat ∧
    (s.Running → exec (.initM128x86 seed) s = .next { s with
      valid := true, variant := .v128x86, seed := seed
      h := .v128x86 ⟨seed, seed, seed, seed⟩, totalLength := 0, carry := [] }) ∧
    (s.fault = true → ∀ t, exec (.initM128x86 seed) s ≠ .next t)

/-- `INIT.M128X64 seed`: both words are the seed with a zero upper half, for every seed. For a non-zero seed the spec
marks the definition as from general knowledge. -/
def Obligations.InitM128x64Creates : Prop :=
  ∀ (seed : W32) (s : State),
    encode (.initM128x64 seed) = 0x12 :: bytesOf 4 seed.toNat ∧
    (s.Running → exec (.initM128x64 seed) s = .next { s with
      valid := true, variant := .v128x64, seed := seed
      h := .v128x64 ⟨BitVec.ofNat 64 seed.toNat, BitVec.ofNat 64 seed.toNat⟩
      totalLength := 0, carry := [] }) ∧
    (s.fault = true → ∀ t, exec (.initM128x64 seed) s ≠ .next t)

/-- R234: `HSIZE` responds `Size(4)` for `V32` and `Size(16)` otherwise and leaves the instance unchanged; its faults are
`IllegalCommand` (a non-zero `imm32`) and then `NoInstance`. -/
def Obligations.HsizeReports : Prop :=
  encode .hsize = [0x40, 0x00, 0x00, 0x00, 0x00] ∧
  ∀ s : State, s.Running →
    (∀ (b1 b2 b3 b4 : Byte) (rest : List Byte), s.stream = 0x40 :: b1 :: b2 :: b3 :: b4 :: rest →
      [b1, b2, b3, b4] ≠ [0, 0, 0, 0] →
      step s = .next { s with
        stream := rest, fault := true, faultKind := 1
        log := s.log ++ [.fault (.illegalCommand [0x40, b1, b2, b3, b4])] }) ∧
    (s.valid = false → exec .hsize s = .next { s with
      fault := true, faultKind := 2, log := s.log ++ [.fault (.noInstance 0x40)] }) ∧
    (s.valid = true → exec .hsize s = .next { s with
      log := s.log ++ [.size (if s.variant = .v32 then 4 else 16)] })

/-! ## Faults -/

/-- R250: the three fault kinds with their codes, who raises each, on which condition, and the information recorded. -/
def Obligations.FaultTable : Prop :=
  ∀ s : State, s.Running →
    (∀ (b0 b1 b2 b3 b4 : Byte) (rest : List Byte), s.stream = b0 :: b1 :: b2 :: b3 :: b4 :: rest →
      (b0 ∉ ([0x10, 0x11, 0x12, 0x20, 0x30, 0x40] : List Byte) ∨
        (b0 = 0x40 ∧ [b1, b2, b3, b4] ≠ [0, 0, 0, 0])) →
      step s = .next { s with
        stream := rest, fault := true, faultKind := 1
        log := s.log ++ [.fault (.illegalCommand [b0, b1, b2, b3, b4])] }) ∧
    (∀ i, opcodeOf i = 0x20 ∨ opcodeOf i = 0x30 ∨ opcodeOf i = 0x40 → s.valid = false →
      exec i s = .next { s with
        fault := true, faultKind := 2, log := s.log ++ [.fault (.noInstance (opcodeOf i))] }) ∧
    (∀ dlen : W32, s.valid = true → dlen.toNat ≠ hashSize s.variant →
      exec (.finalize dlen) s = .next { s with
        fault := true, faultKind := 3
        log := s.log ++ [.fault (.destLength dlen (hashSize s.variant))] }) ∧
    (∀ i t, exec i s = .next t → t.fault = true →
      (s.valid = false ∧ (opcodeOf i = 0x20 ∨ opcodeOf i = 0x30 ∨ opcodeOf i = 0x40)) ∨
      (s.valid = true ∧ ∃ dlen : W32, i = .finalize dlen ∧ dlen.toNat ≠ hashSize s.variant))

/-- R251: FINALIZE compares `dlen` with `HS(variant)` before anything else: smaller and larger both raise `DestLength`,
the exact length runs. -/
def Obligations.DestLengthChecked : Prop :=
  ∀ (dlen : W32) (s : State), s.Live →
    (dlen.toNat < hashSize s.variant ∨ hashSize s.variant < dlen.toNat →
      exec (.finalize dlen) s = .next { s with
        fault := true, faultKind := 3
        log := s.log ++ [.fault (.destLength dlen (hashSize s.variant))] }) ∧
    (dlen.toNat = hashSize s.variant →
      ∃ t, exec (.finalize dlen) s = .next t ∧ t.fault = false)

/-- R255: the checks in order, the first that fails is the one reported: a latched fault (no step), `IllegalCommand`,
`NoInstance`, `DestLength`; a command raises at most one. -/
def Obligations.FirstFailingCheckReported : Prop :=
  ∀ s : State,
    (s.fault = true → ∀ t, step s ≠ .next t) ∧
    (∀ hdr rest, s.Running → decode s.stream = .illegal hdr rest →
      ∃ t, step s = .next t ∧ t.faultKind = 1 ∧
        t.log = s.log ++ [.fault (.illegalCommand hdr)]) ∧
    (∀ i rest, s.Running → decode s.stream = .command i rest → s.valid = false →
      opcodeOf i = 0x20 ∨ opcodeOf i = 0x30 ∨ opcodeOf i = 0x40 →
      ∃ t, step s = .next t ∧ t.faultKind = 2 ∧
        t.log = s.log ++ [.fault (.noInstance (opcodeOf i))]) ∧
    (∀ dlen rest, s.Running → decode s.stream = .command (.finalize dlen) rest → s.valid = true →
      dlen.toNat ≠ hashSize s.variant →
      ∃ t, step s = .next t ∧ t.faultKind = 3 ∧
        t.log = s.log ++ [.fault (.destLength dlen (hashSize s.variant))]) ∧
    (∀ t, step s = .next t →
      (t.log.countP isFaultRecord) ≤ (s.log.countP isFaultRecord) + 1)

/-- R252: a fault is precise. A step that raises changes `fault`, `fault_kind` and the log, to which it appends the one
fault record, and nothing else; the command's bytes are consumed. -/
def Obligations.FaultsArePrecise : Prop :=
  ∀ s t : State, step s = .next t → t.fault = true →
    ∃ r : FaultRecord, t = { s with
      stream := t.stream, fault := true, faultKind := faultCode (faultKindOf r)
      log := s.log ++ [.fault r] }

/-- Only INIT writes `variant`, `seed` and `valid`, and it writes the opcode's variant, its `imm32` and 1; no command
clears `valid` (spec/10_state.md sections 1 and 3). -/
def Obligations.OnlyInitSetsIdentity : Prop :=
  ∀ (i : Instr) (s t : State), exec i s = .next t →
    (variantOfInit i = none →
      t.variant = s.variant ∧ t.seed = s.seed ∧ t.valid = s.valid) ∧
    (∀ v, variantOfInit i = some v →
      t.variant = v ∧ t.seed = BitVec.ofNat 32 (immOf i) ∧ t.valid = true) ∧
    (s.valid = true → t.valid = true)

/-- What each command appends to the response log: FINALIZE one digest, HSIZE one size byte, INIT and APPEND nothing, a
faulting command one fault record; the earlier records stay (spec/30_encoding.md section 6). -/
def Obligations.ResponsesPerCommand : Prop :=
  ∀ (i : Instr) (s t : State), exec i s = .next t →
    (t.fault = true → ∃ r, t.log = s.log ++ [.fault r]) ∧
    (t.fault = false → t.log = s.log ++
      match i with
      | .initM32 _ => []
      | .initM128x86 _ => []
      | .initM128x64 _ => []
      | .append _ => []
      | .finalize _ => [.digest (wrwords (finMix (tailFold s.h s.carry) s.totalLength))]
      | .hsize => [.size (BitVec.ofNat 8 (hashSize s.variant))])

/-! ## Bytes and words -/

/-- R13: `le` and `bytes_n` are the sums and slices the rule gives, and undo each other. -/
def Obligations.LittleEndianLaws : Prop :=
  (∀ b : List Byte, le b = ∑ i ∈ Finset.range b.length, (b.getD i 0).toNat * 2 ^ (8 * i)) ∧
  (∀ n v : Nat, (bytesOf n v).length = n ∧
    ∀ i, i < n → (bytesOf n v)[i]? = some (BitVec.ofNat 8 (v / 2 ^ (8 * i)))) ∧
  (∀ n v : Nat, v < 2 ^ (8 * n) → le (bytesOf n v) = v) ∧
  (∀ b : List Byte, bytesOf b.length (le b) = b)

/-- A block read takes the words in ascending order, each little-endian, and the 64-bit words of a block are pairs of its
32-bit words (spec/40_block_codec.md section 2, spec/20_memory.md section 2). -/
def Obligations.BlockWordsLittleEndian : Prop :=
  (∀ b0 b1 b2 b3 : Byte, rdblkV32 [b0, b1, b2, b3] = b3 ++ b2 ++ b1 ++ b0) ∧
  (∀ c0 c1 c2 c3 : List Byte, c0.length = 4 → c1.length = 4 → c2.length = 4 → c3.length = 4 →
    rdblkV128x86 (c0 ++ c1 ++ c2 ++ c3) = ⟨rdblkV32 c0, rdblkV32 c1, rdblkV32 c2, rdblkV32 c3⟩) ∧
  (∀ b : List Byte, b.length = 16 →
    (rdblkV128x64 b).w1 = (rdblkV128x86 b).w2 ++ (rdblkV128x86 b).w1 ∧
    (rdblkV128x64 b).w2 = (rdblkV128x86 b).w4 ++ (rdblkV128x86 b).w3)

/-- The codec is a bijection between blocks and word tuples (spec/40_block_codec.md section 5, an inference the spec
marks as its own). -/
def Obligations.BlockCodecRoundTrip : Prop :=
  (∀ x : WordTuple, rdblk (shapeOf x) (wrwords x) = x) ∧
  (∀ (v : Variant) (b : List Byte), b.length = blockSize v →
    shapeOf (rdblk v b) = v ∧ wrwords (rdblk v b) = b)

/-- R117 for `cnt <= W/8` bytes: their little-endian sum, zero-extended; the missing bytes count as zero. -/
def Obligations.PartialWordZeroExtends : Prop :=
  ∀ (w : Nat) (b : List Byte), 8 * b.length ≤ w →
    (readWord w b).toNat = ∑ i ∈ Finset.range b.length, (b.getD i 0).toNat * 2 ^ (8 * i) ∧
    (∀ k, readWord w (b ++ List.replicate k 0) = readWord w b) ∧
    (8 * b.length = w → writeWord (readWord w b) = b)

/-- R207: the digest is the words in order `h1[,h2[,h3,h4]]`, each little-endian, 4 or 16 bytes. -/
def Obligations.DigestSerialisation : Prop :=
  (∀ w : W32, wrwords (.v32 w) = bytesOf 4 w.toNat) ∧
  (∀ q : Quad, wrwords (.v128x86 q) =
    bytesOf 4 q.w1.toNat ++ bytesOf 4 q.w2.toNat ++ bytesOf 4 q.w3.toNat ++ bytesOf 4 q.w4.toNat) ∧
  (∀ p : Pair, wrwords (.v128x64 p) = bytesOf 8 p.w1.toNat ++ bytesOf 8 p.w2.toNat) ∧
  (∀ x : WordTuple, (wrwords x).length = hashSize (shapeOf x))

/-- `rotl_N(x, r)` moves bit `i` to bit `(i + r) mod N` (spec/00_scope.md section 4, whose meaning of `rotl` the spec
marks as from general knowledge). -/
def Obligations.RotationMovesBits : Prop :=
  ∀ (n : Nat) (x : BitVec n) (r i : Nat), 0 < r → r < n → i < n →
    (rotl x r).getLsbD ((i + r) % n) = x.getLsbD i

/-- `HS` per variant and `HS = BS` (R240), a block is `NW` words of `W` bits (R6), and the low two bits of an INIT opcode
(R83) are the code of its variant (R21). -/
def Obligations.VariantConstants : Prop :=
  hashSize .v32 = 4 ∧ hashSize .v128x86 = 16 ∧ hashSize .v128x64 = 16 ∧
  (∀ v, hashSize v = blockSize v ∧ 8 * blockSize v = numWords v * wordBits v) ∧
  (∀ v seed, (opcodeOf (initOf v seed)).setWidth 2 = variantCode v)

/-! ## The mixer -/

/-- R133: `MIX.V32`, operation by operation, with the rule's corner cases and example. -/
def Obligations.MixV32Line : Prop :=
  (∀ h1 k1 : W32, mixV32 h1 k1 =
    rotl (h1 ^^^ (rotl (k1 * 0xcc9e2d51) 15 * 0x1b873593)) 13 * 5 + 0xe6546b64) ∧
  mixV32 0 0 = 0xe6546b64 ∧ mixV32 0xffffffff 0xffffffff = 0xb849f5ee ∧
  mixV32 0x00000125 0x04030201 = 0x4f3b4727

/-- R135: `MIX.V128X64`: line 1 adds the old `h2`, line 2 the new `h1`; with the rule's corner cases and examples. -/
def Obligations.MixV128x64Lines : Prop :=
  (∀ h1 h2 k1 k2 h1' : W64,
    h1' = (rotl (h1 ^^^ (rotl (k1 * 0x87c37b91114253d5) 31 * 0x4cf5ad432745937f)) 27 + h2) * 5
      + 0x52dce729 →
    mixV128x64 ⟨h1, h2⟩ ⟨k1, k2⟩ =
      ⟨h1', (rotl (h2 ^^^ (rotl (k2 * 0x4cf5ad432745937f) 33 * 0x87c37b91114253d5)) 31 + h1') * 5
        + 0x38495ab5⟩) ∧
  mixV128x64 ⟨0, 0⟩ ⟨0, 0⟩ = ⟨0x0000000052dce729, 0x00000001d699de82⟩ ∧
  mixV128x64 ⟨0xffffffffffffffff, 0xffffffffffffffff⟩ ⟨0xffffffffffffffff, 0xffffffffffffffff⟩ =
    ⟨0x5afdb6c4e814f338, 0x7765cc27813091de⟩ ∧
  mixV128x64 ⟨0, 0⟩ ⟨0x6369757120656854, 0x206e776f7262206b⟩ =
    ⟨0x065f54070009580c, 0x1185bfe0bc383732⟩ ∧
  mixV128x64 ⟨0x1111111111111111, 0x2222222222222222⟩ ⟨0x0102030405060708, 0x090a0b0c0d0e0f10⟩ =
    ⟨0x93920c75dfe087a5, 0x2981f531a3ce78cd⟩

/-- R138: `MIX.V128X86`: lines 1 to 3 add the old next word, line 4 the new `h1`; with the rule's corner cases and
examples. -/
def Obligations.MixV128x86Lines : Prop :=
  (∀ h1 h2 h3 h4 k1 k2 k3 k4 h1' : W32,
    h1' = (rotl (h1 ^^^ (rotl (k1 * 0x239b961b) 15 * 0xab0e9789)) 19 + h2) * 5 + 0x561ccd1b →
    mixV128x86 ⟨h1, h2, h3, h4⟩ ⟨k1, k2, k3, k4⟩ =
      ⟨h1',
        (rotl (h2 ^^^ (rotl (k2 * 0xab0e9789) 16 * 0x38b34ae5)) 17 + h3) * 5 + 0x0bcaa747,
        (rotl (h3 ^^^ (rotl (k3 * 0x38b34ae5) 17 * 0xa1e38b93)) 15 + h4) * 5 + 0x96cd1c35,
        (rotl (h4 ^^^ (rotl (k4 * 0xa1e38b93) 18 * 0x239b961b)) 13 + h1') * 5 + 0x32ac3b17⟩) ∧
  mixV128x86 ⟨0, 0, 0, 0⟩ ⟨0, 0, 0, 0⟩ = ⟨0x561ccd1b, 0x0bcaa747, 0x96cd1c35, 0xe13c3c9e⟩ ∧
  mixV128x86 ⟨0xffffffff, 0xffffffff, 0xffffffff, 0xffffffff⟩
    ⟨0xffffffff, 0xffffffff, 0xffffffff, 0xffffffff⟩ =
    ⟨0xc7cabb8e, 0x93f81d22, 0x32a78cb0, 0x876e8184⟩ ∧
  mixV128x86 ⟨0, 0, 0, 0⟩ ⟨0x20656854, 0x63697571, 0x7262206b, 0x206e776f⟩ =
    ⟨0x747f5a24, 0xe268b3ab, 0x2f0812bd, 0xa61229a3⟩ ∧
  mixV128x86 ⟨0x11111111, 0x22222222, 0x33333333, 0x44444444⟩
    ⟨0x01020304, 0x05060708, 0x090a0b0c, 0x0d0e0f10⟩ =
    ⟨0x56efdb3a, 0xbe29c348, 0x7d67a629, 0x900f76dc⟩

/-- Every scramble `KSCR_{v,j}` maps 0 to 0 and is a bijection (spec/41_mixer.md section 5, an inference the spec marks
as its own). -/
def Obligations.ScramblesAreBijections : Prop :=
  (∀ l ∈ [lineV32, lineX86w1, lineX86w2, lineX86w3, lineX86w4],
    kscr l 0 = 0 ∧ Function.Bijective (kscr l)) ∧
  (∀ l ∈ [lineX64w1, lineX64w2], kscr l 0 = 0 ∧ Function.Bijective (kscr l))

/-- For a fixed block the mixer is a bijection on state tuples (spec/41_mixer.md section 5, an inference the spec marks
as its own). -/
def Obligations.MixersAreBijections : Prop :=
  (∀ k, Function.Bijective fun h => mixV32 h k) ∧
  (∀ k, Function.Bijective fun h => mixV128x86 h k) ∧
  (∀ k, Function.Bijective fun h => mixV128x64 h k)

/-! ## FINALIZE's operations -/

/-- R197, R198: `fmix32` and `fmix64`, operation by operation, with the rules' corner cases and examples. -/
def Obligations.AvalancheFormulas : Prop :=
  (∀ h a b c d : W32, a = h ^^^ (h >>> 16) → b = a * 0x85ebca6b → c = b ^^^ (b >>> 13) →
    d = c * 0xc2b2ae35 → fmix32 h = d ^^^ (d >>> 16)) ∧
  (∀ k a b c d : W64, a = k ^^^ (k >>> 33) → b = a * 0xff51afd7ed558ccd → c = b ^^^ (b >>> 33) →
    d = c * 0xc4ceb9fe1a85ec53 → fmix64 k = d ^^^ (d >>> 33)) ∧
  fmix32 0 = 0 ∧ fmix32 1 = 0x514e28b7 ∧ fmix32 0x80000000 = 0x6d3c65a0 ∧
  fmix32 0xffffffff = 0x81f16f39 ∧
  fmix64 0 = 0 ∧ fmix64 1 = 0xb456bcfc34c2cb2c ∧ fmix64 0x8000000000000000 = 0x8f780810af31a493 ∧
  fmix64 0xffffffffffffffff = 0x64b5720b4b825f21

/-- The avalanches are bijections with fixed point 0 (spec/43_finalize.md section 3, an inference the spec marks as its
own). -/
def Obligations.AvalanchesAreBijections : Prop :=
  fmix32 0 = 0 ∧ Function.Bijective fmix32 ∧ fmix64 0 = 0 ∧ Function.Bijective fmix64

/-- Step 2 of FINALIZE is a bijection of the state for each fixed length, and maps zeros with length 0 to zeros
(spec/43_finalize.md section 3, an inference the spec marks as its own). -/
def Obligations.FinMixIsBijection : Prop :=
  (∀ t, Function.Bijective fun h => finMixV32 h t) ∧
  (∀ t, Function.Bijective fun h => finMixV128x86 h t) ∧
  (∀ t, Function.Bijective fun h => finMixV128x64 h t) ∧
  (∀ t h, shapeOf (finMix h t) = shapeOf h) ∧
  (∀ v, finMix (initState v 0) 0 = initState v 0)

/-- R192, R193, R194: which state words the tail folds into, by its length, and with which partial word. -/
def Obligations.TailFoldByLength : Prop :=
  (∀ (h : W32) (t : List Byte), t.length < 4 →
    tailFoldV32 h t =
      if t.length ≥ 1 then h ^^^ (rotl (readWord 32 t * 0xcc9e2d51) 15 * 0x1b873593) else h) ∧
  (∀ (h : Pair) (t : List Byte), t.length < 16 →
    tailFoldV128x64 h t =
      ⟨if t.length ≥ 1 then
          h.w1 ^^^ (rotl (readWord 64 (t.take 8) * 0x87c37b91114253d5) 31 * 0x4cf5ad432745937f)
        else h.w1,
       if t.length ≥ 9 then
          h.w2 ^^^ (rotl (readWord 64 (t.drop 8) * 0x4cf5ad432745937f) 33 * 0x87c37b91114253d5)
        else h.w2⟩) ∧
  (∀ (h : Quad) (t : List Byte), t.length < 16 →
    tailFoldV128x86 h t =
      ⟨if t.length ≥ 1 then
          h.w1 ^^^ (rotl (readWord 32 (t.take 4) * 0x239b961b) 15 * 0xab0e9789) else h.w1,
       if t.length ≥ 5 then
          h.w2 ^^^ (rotl (readWord 32 ((t.drop 4).take 4) * 0xab0e9789) 16 * 0x38b34ae5) else h.w2,
       if t.length ≥ 9 then
          h.w3 ^^^ (rotl (readWord 32 ((t.drop 8).take 4) * 0x38b34ae5) 17 * 0xa1e38b93) else h.w3,
       if t.length ≥ 13 then
          h.w4 ^^^ (rotl (readWord 32 (t.drop 12) * 0xa1e38b93) 18 * 0x239b961b) else h.w4⟩) ∧
  tailFoldV32 0x4f3b4727 [0x05, 0x06] = 0x581d60ce ∧
  tailFoldV128x64 ⟨0xef7ef36e84b36d66, 0x20112c4dac59411d⟩
    [0x68, 0x65, 0x20, 0x6c, 0x61, 0x7a, 0x79, 0x20, 0x64, 0x6f, 0x67] =
    ⟨0x515233ebf2a47c15, 0x106ea6d665619948⟩ ∧
  tailFoldV128x86 ⟨0, 0, 0, 0⟩ [0x74] = ⟨0x8fc3fb40, 0, 0, 0⟩

/-- The tail fold is the first halves of the mixer's lines on the zero-padded tail, without the second halves
(spec/43_finalize.md section 2, an inference the spec marks as its own). -/
def Obligations.TailFoldIsPaddedFirstHalves : Prop :=
  (∀ (h : W32) (t : List Byte), t.length < 4 →
    tailFoldV32 h t = foldLine lineV32 h (rdblkV32 (t ++ List.replicate (4 - t.length) 0))) ∧
  (∀ (h : Quad) (t : List Byte) (k : Quad), t.length < 16 →
    k = rdblkV128x86 (t ++ List.replicate (16 - t.length) 0) →
    tailFoldV128x86 h t =
      ⟨foldLine lineX86w1 h.w1 k.w1, foldLine lineX86w2 h.w2 k.w2,
       foldLine lineX86w3 h.w3 k.w3, foldLine lineX86w4 h.w4 k.w4⟩) ∧
  (∀ (h : Pair) (t : List Byte) (k : Pair), t.length < 16 →
    k = rdblkV128x64 (t ++ List.replicate (16 - t.length) 0) →
    tailFoldV128x64 h t = ⟨foldLine lineX64w1 h.w1 k.w1, foldLine lineX64w2 h.w2 k.w2⟩)

/-- R201 to R205: cross-propagation and step 2 of each variant, with the rules' examples. -/
def Obligations.FinalizationMixFormulas : Prop :=
  (∀ h1 h2 h3 h4 s : W32, s = h1 + h2 + h3 + h4 →
    propV128x86 ⟨h1, h2, h3, h4⟩ = ⟨s, h2 + s, h3 + s, h4 + s⟩) ∧
  (∀ h1 h2 : W64, propV128x64 ⟨h1, h2⟩ = ⟨h1 + h2, h2 + (h1 + h2)⟩) ∧
  (∀ (h : W32) (t : BitVec 64), finMixV32 h t = fmix32 (h ^^^ BitVec.ofNat 32 t.toNat)) ∧
  (∀ (h p : Quad) (t : BitVec 64) (l : W32), l = BitVec.ofNat 32 t.toNat →
    p = propV128x86 ⟨h.w1 ^^^ l, h.w2 ^^^ l, h.w3 ^^^ l, h.w4 ^^^ l⟩ →
    finMixV128x86 h t = propV128x86 ⟨fmix32 p.w1, fmix32 p.w2, fmix32 p.w3, fmix32 p.w4⟩) ∧
  (∀ (h p : Pair) (t : BitVec 64), p = propV128x64 ⟨h.w1 ^^^ t, h.w2 ^^^ t⟩ →
    finMixV128x64 h t = propV128x64 ⟨fmix64 p.w1, fmix64 p.w2⟩) ∧
  propV128x86 ⟨0, 0, 0, 0⟩ = ⟨0, 0, 0, 0⟩ ∧
  propV128x86 ⟨0x8fc3fb41, 1, 1, 1⟩ = ⟨0x8fc3fb44, 0x8fc3fb45, 0x8fc3fb45, 0x8fc3fb45⟩ ∧
  propV128x64 ⟨0, 0⟩ = ⟨0, 0⟩ ∧
  propV128x64 ⟨0x1e875f8bbc9f56a2, 1⟩ = ⟨0x1e875f8bbc9f56a3, 0x1e875f8bbc9f56a4⟩ ∧
  finMixV32 0 0 = 0 ∧ finMixV32 1 0 = 0x514e28b7 ∧ finMixV32 0x581d60ce 6 = 0xe24d19b0 ∧
  finMixV128x86 ⟨0, 0, 0, 0⟩ 0 = ⟨0, 0, 0, 0⟩ ∧
  finMixV128x86 ⟨0x8fc3fb40, 0, 0, 0⟩ 1 = ⟨0x551b2816, 0x138cc122, 0x138cc122, 0x138cc122⟩ ∧
  finMixV128x64 ⟨0, 0⟩ 0 = ⟨0, 0⟩ ∧
  finMixV128x64 ⟨0x1e875f8bbc9f56a3, 0⟩ 1 = ⟨0x687dbc70630a4ce6, 0x1865ac4370d6d84c⟩ ∧
  finMixV128x64 ⟨0x515233ebf2a47c15, 0x106ea6d665619948⟩ 43 =
    ⟨0xe34bbc7bbc071b6c, 0x7a433ca9c49a9347⟩

/-- The length reaches the result through exactly the low `W` bits each word receives: equal there, equal results;
different there, different results (spec/43_finalize.md section 3 for the truncation; that nothing else of it is lost is
derived). -/
def Obligations.LengthInjectionExact : Prop :=
  ∀ (h : WordTuple) (t t' : BitVec 64),
    finMix h t = finMix h t' ↔
      t.toNat % 2 ^ wordBits (shapeOf h) = t'.toNat % 2 ^ wordBits (shapeOf h)

/-! ## APPEND -/

/-- R161: when APPEND has a step, when it raises `NoInstance`, and that it otherwise always succeeds. -/
def Obligations.AppendPreconditions : Prop :=
  ∀ (payload : List Byte) (s : State),
    (s.fault = true → ∀ t, exec (.append payload) s ≠ .next t) ∧
    (s.Running → s.valid = false → exec (.append payload) s = .next { s with
      fault := true, faultKind := 2, log := s.log ++ [.fault (.noInstance 0x20)] }) ∧
    (s.Running → s.valid = true →
      ∃ t, exec (.append payload) s = .next t ∧ t.fault = false ∧ t.log = s.log)

/-- The closed form of one APPEND on an instance whose carry is shorter than a block (spec/42_append.md section 3, an
inference the spec marks as its own): the four steps of the meaning mix exactly the full blocks of `CARRY ‖ SRC`, in
order, and keep the rest. -/
def Obligations.AppendClosedForm : Prop :=
  ∀ (payload : List Byte) (s : State), s.Live → carryLen s < blockSize s.variant →
    exec (.append payload) s = .next { s with
      h := (List.range ((carryLen s + payload.length) / blockSize s.variant)).foldl
        (fun h i => mixBlock h
          (((s.carry ++ payload).drop (i * blockSize s.variant)).take (blockSize s.variant))) s.h
      totalLength := BitVec.ofNat 64 (s.totalLength.toNat + payload.length)
      carry := (s.carry ++ payload).drop
        ((carryLen s + payload.length) / blockSize s.variant * blockSize s.variant) }

/-- A chunk too short to complete a block only lengthens the carry: nothing is mixed and a non-empty carry is not cleared
(spec/42_append.md section 2, spec/90_conflicts.md C3). -/
def Obligations.ShortChunkOnlyBuffers : Prop :=
  ∀ (payload : List Byte) (s : State), s.Live →
    carryLen s + payload.length < blockSize s.variant →
    exec (.append payload) s = .next { s with
      totalLength := BitVec.ofNat 64 (s.totalLength.toNat + payload.length)
      carry := s.carry ++ payload }

/-- The empty chunk leaves every state element unchanged, but needs an instance (spec/42_append.md section 3, an
inference the spec marks as its own). -/
def Obligations.EmptyChunkChangesNothing : Prop :=
  ∀ s : State, s.Running → carryLen s < blockSize s.variant →
    (s.valid = true → exec (.append []) s = .next s) ∧
    (s.valid = false → ∃ t, exec (.append []) s = .next t ∧ t.fault = true ∧ t.faultKind = 2)

/-- R170, streaming equivalence: two chunks in a row are as one, and any two chunkings of the same bytes leave the
instance equal (here equal in every field of the state). -/
def Obligations.StreamingEquivalence : Prop :=
  ∀ s : State, s.Live → carryLen s < blockSize s.variant →
    (∀ a b : List Byte, ∃ t, execAll [.append a, .append b] s = .next t ∧
      exec (.append (a ++ b)) s = .next t) ∧
    (∀ cs ds : List (List Byte), cs.flatten = ds.flatten →
      ∃ t, execAll (cs.map Instr.append) s = .next t ∧ execAll (ds.map Instr.append) s = .next t)

/-- The state as a function of the message since the last INIT (spec/42_append.md section 3, an inference the spec marks
as its own), and the same after a FINALIZE in place of the INIT. -/
def Obligations.StateOfMessage : Prop :=
  (∀ (v : Variant) (seed : W32) (chunks : List (List Byte)) (s : State), s.Running →
    execAll (initOf v seed :: chunks.map Instr.append) s = .next { s with
      valid := true, variant := v, seed := seed
      h := mixMessage (blockSize v) (initState v seed) chunks.flatten
      totalLength := BitVec.ofNat 64 chunks.flatten.length
      carry := messageTail (blockSize v) chunks.flatten }) ∧
  (∀ (chunks : List (List Byte)) (s : State), s.Live →
    ∃ d, execAll (finalizeOf s.variant :: chunks.map Instr.append) s = .next { s with
      h := mixMessage (blockSize s.variant) (initState s.variant s.seed) chunks.flatten
      totalLength := BitVec.ofNat 64 chunks.flatten.length
      carry := messageTail (blockSize s.variant) chunks.flatten
      log := s.log ++ [.digest d] })

/-! ## FINALIZE -/

/-- `FINALIZE dlen` (R190): its two faults, and otherwise the digest of tail fold, length injection and avalanche,
delivered as the response, with the instance reset. That the response record stands for the write to DST is log entry 8. -/
def Obligations.FinalizeCompletes : Prop :=
  ∀ (dlen : W32) (s : State),
    encode (.finalize dlen) = 0x30 :: bytesOf 4 dlen.toNat ∧
    (s.Running → s.valid = false → exec (.finalize dlen) s = .next { s with
      fault := true, faultKind := 2, log := s.log ++ [.fault (.noInstance 0x30)] }) ∧
    (s.Live → dlen.toNat ≠ hashSize s.variant → exec (.finalize dlen) s = .next { s with
      fault := true, faultKind := 3
      log := s.log ++ [.fault (.destLength dlen (hashSize s.variant))] }) ∧
    (s.Live → dlen.toNat = hashSize s.variant → exec (.finalize dlen) s = .next { s with
      h := initState s.variant s.seed, totalLength := 0, carry := []
      log := s.log ++ [.digest (wrwords (finMix (tailFold s.h s.carry) s.totalLength))] })

/-- The digest FINALIZE delivers has exactly `HS` bytes, the length of the destination it accepted (spec/20_memory.md
section 3, spec/43_finalize.md section 4). The model has no DST: the response record stands for the write, which is log
entry 8. -/
def Obligations.DigestFillsDestination : Prop :=
  ∀ (dlen : W32) (s t : State), s.Live → s.InstanceWf → exec (.finalize dlen) s = .next t →
    t.fault = false → ∃ d, t.log = s.log ++ [.digest d] ∧ d.length = hashSize s.variant ∧
      d.length = dlen.toNat

/-- R211, reuse idempotence: the instance after FINALIZE is the instance after an INIT of the same variant and seed, and
whatever commands follow run alike from both, apart from the records already in the log. -/
def Obligations.FinalizeThenLikeInit : Prop :=
  ∀ s : State, s.Live →
    ∃ t u, exec (finalizeOf s.variant) s = .next t ∧ exec (initOf s.variant s.seed) s = .next u ∧
      t.SameInstance u ∧
      ∀ is : List Instr,
        (∀ t', execAll is t = .next t' → ∃ u' l, execAll is u = .next u' ∧
          t'.SameInstance u' ∧ t'.log = t.log ++ l ∧ u'.log = u.log ++ l) ∧
        (∀ u', execAll is u = .next u' → ∃ t', execAll is t = .next t')

/-- The digest of a whole message in closed form (spec/43_finalize.md section 5, an inference the spec marks as its own),
for every chunking and from every state with no fault latched; the instance is afterwards freshly created. -/
def Obligations.DigestOfMessage : Prop :=
  ∀ (v : Variant) (seed : W32) (chunks : List (List Byte)) (s : State), s.Running →
    ∃ t, execAll (initOf v seed :: (chunks.map Instr.append ++ [finalizeOf v])) s = .next t ∧
      t.log = s.log ++ [.digest (oneShotDigest v seed chunks.flatten)] ∧
      t.SameInstance (createInstance v seed s)

/-- The digest of the empty message is all zero exactly for seed 0, in every variant (spec/43_finalize.md sections 3 and
5, inferences the spec marks as its own). That no other seed gives a zero initial state is INITSTATE (spec/10_state.md
section 2), which for a non-zero seed of a 128-bit variant the spec marks as from general knowledge. -/
def Obligations.EmptyMessageZeroIffSeedZero : Prop :=
  ∀ (v : Variant) (seed : W32),
    oneShotDigest v seed [] = List.replicate (hashSize v) 0 ↔ seed = 0

/-! ## Invariants of every step -/

/-- Every step keeps the relations inside a created instance: the hash words have the variant's shape, the carry is
shorter than a block, and `carry_len = total_length mod BS`. -/
def Obligations.StepKeepsInstanceWf : Prop :=
  ∀ s t : State, s.InstanceWf → step s = .next t → t.InstanceWf

/-- Every step keeps the response log in agreement with the fault latch: at most one fault record, the last one, present
exactly while `fault = 1`, with the latched kind. -/
def Obligations.StepKeepsLogWf : Prop :=
  ∀ s t : State, s.LogWf → step s = .next t → t.LogWf

/-- After hardware reset `valid = 0`, `fault = 0` and the log is empty, and both invariants hold, at reset and after a
hardware reset from any state. -/
def Obligations.ResetState : Prop :=
  ∀ s : State, s = State.reset ∨ (∃ r : State, s = hardwareReset r) →
    s.valid = false ∧ s.fault = false ∧ s.log = [] ∧ s.InstanceWf ∧ s.LogWf

/-! ## Frames -/

/-- INIT leaves the fault latch, the log and the stream alone, and empties CARRY. -/
def Obligations.InitFrame : Prop :=
  ∀ (v : Variant) (seed : W32) (s t : State), exec (initOf v seed) s = .next t →
    t.fault = s.fault ∧ t.faultKind = s.faultKind ∧ t.log = s.log ∧ t.stream = s.stream ∧
    ∀ a, readCarry t a = none

/-- APPEND on an instance leaves `valid`, `variant`, `seed`, the fault latch, the log and the stream alone. While no block
completes it stores the chunk at `carry_len` and leaves the hash words and every other CARRY byte alone; where one
completes, every index from the new `carry_len = (carry_len + n) mod BS` on is empty. -/
def Obligations.AppendFrame : Prop :=
  ∀ (payload : List Byte) (s t : State), s.valid = true → exec (.append payload) s = .next t →
    (t.valid = s.valid ∧ t.variant = s.variant ∧ t.seed = s.seed ∧ t.fault = s.fault ∧
      t.faultKind = s.faultKind ∧ t.log = s.log ∧ t.stream = s.stream) ∧
    (carryLen s + payload.length < blockSize s.variant →
      t.h = s.h ∧ ∀ a, a < carryLen s ∨ carryLen s + payload.length ≤ a →
        readCarry t a = readCarry s a) ∧
    (carryLen s < blockSize s.variant → blockSize s.variant ≤ carryLen s + payload.length →
      ∀ a, (carryLen s + payload.length) % blockSize s.variant ≤ a → readCarry t a = none)

/-- FINALIZE leaves `valid`, `variant`, `seed` and the stream alone; where it runs also the fault latch, and where it
raises the hash words, the byte count and every CARRY byte. -/
def Obligations.FinalizeFrame : Prop :=
  ∀ (dlen : W32) (s t : State), exec (.finalize dlen) s = .next t →
    t.valid = s.valid ∧ t.variant = s.variant ∧ t.seed = s.seed ∧ t.stream = s.stream ∧
    (t.fault = false → t.faultKind = s.faultKind ∧ ∀ a, readCarry t a = none) ∧
    (t.fault = true → t.h = s.h ∧ t.totalLength = s.totalLength ∧
      ∀ a, readCarry t a = readCarry s a)

/-- HSIZE leaves every element of the instance and the stream alone, and with an instance the fault latch too. -/
def Obligations.HsizeFrame : Prop :=
  ∀ s t : State, exec .hsize s = .next t →
    t.valid = s.valid ∧ t.variant = s.variant ∧ t.seed = s.seed ∧ t.h = s.h ∧
    t.totalLength = s.totalLength ∧ (∀ a, readCarry t a = readCarry s a) ∧ t.stream = s.stream ∧
    (s.valid = true → t.fault = s.fault ∧ t.faultKind = s.faultKind)

/-- Before an INIT no command reads the elements that hold no value (spec/10_state.md section 3): two states that agree on
`valid = 0`, the fault latch, the log and the stream answer every step alike, and equally once an instance exists. So
nothing rests on the values log entry 3 names. -/
def Obligations.BeforeInitNothingIsRead : Prop :=
  ∀ s s' t : State, s.valid = false → s'.valid = false → s.fault = s'.fault →
    s.faultKind = s'.faultKind → s.log = s'.log → s.stream = s'.stream → step s = .next t →
    ∃ t', step s' = .next t' ∧ t.valid = t'.valid ∧ t.fault = t'.fault ∧
      t.faultKind = t'.faultKind ∧ t.log = t'.log ∧ t.stream = t'.stream ∧
      (t.valid = true → t = t')

/-! ## The assembler -/

/-- R89 with R236 and R237: the expansion of each pseudo-command. FINALIZE.NEW, wherever it stands, is FINALIZE with the
`HS` of the variant of the most recent INIT before it in the same program, and as the command on a live instance it never
raises `DestLength`. -/
def Obligations.PseudoCommandExpansions : Prop :=
  (∀ native64 live (text : List Char), (∀ c ∈ text, c.toNat < 128) →
    expand native64 live (.appendS text) =
      some [.append (text.map fun c => BitVec.ofNat 8 c.toNat)]) ∧
  (∀ native64 (before after : List AsmLine) is v, assembleFrom native64 none before = some is →
    is.reverse.findSome? variantOfInit = some v →
    assembleFrom native64 none (before ++ .finalizeNew :: after) =
      assembleFrom native64 none (before ++ .command (.finalize (if v = .v32 then 4 else 16)) :: after)) ∧
  (∀ native64 live v seed (bytes : List Byte), bytes.length < 2 ^ 32 →
    assembleFrom native64 live [.command (initOf v seed), .command (.append bytes), .finalizeNew] =
      some [initOf v seed, .append bytes, .finalize (if v = .v32 then 4 else 16)]) ∧
  (∀ live seed, expand true live (.initM128Def seed) = some [.initM128x64 seed] ∧
    expand false live (.initM128Def seed) = some [.initM128x86 seed]) ∧
  (∀ native64 live v seed bytes, expand native64 live (.hash v seed bytes) =
    some [initOf v seed, .append bytes, .finalize (BitVec.ofNat 32 (hashSize v))]) ∧
  (∀ s : State, s.Live → ∃ t, exec (finalizeOf s.variant) s = .next t ∧ t.fault = false)

/-- The assembler's text of each command and each pseudo-command assembles to the bytes spec/95_test_vectors.md writes
beside it (the programs V1, P3 and P7, and rows of X1); of the three HASH lines, to those of R89's expansion. How the text
is cut into words, that FINALIZE.NEW with no INIT before it has no expansion, and the refusal of a number too wide and of a
line that is no command are the model's own: log entry 12. -/
def Obligations.AssemblerText : Prop :=
  assembleText false ["INIT.M32 293 ; the seed".toList, "APPEND [1,2,3,4,5,6]".toList, "FINALIZE 4".toList] =
    some [0x10, 0x25, 0x01, 0x00, 0x00, 0x20, 0x06, 0x00, 0x00, 0x00, 0x01, 0x02, 0x03, 0x04, 0x05, 0x06,
      0x30, 0x04, 0x00, 0x00, 0x00] ∧
  assembleText false ["INIT.M128X86 0x9747b28c".toList, "APPEND.S \"t\"".toList, "FINALIZE 16".toList,
      "APPEND []".toList, "FINALIZE 16".toList] =
    some [0x11, 0x8c, 0xb2, 0x47, 0x97, 0x20, 0x01, 0x00, 0x00, 0x00, 0x74, 0x30, 0x10, 0x00, 0x00, 0x00,
      0x20, 0x00, 0x00, 0x00, 0x00, 0x30, 0x10, 0x00, 0x00, 0x00] ∧
  assembleText true ["INIT.M128DEF 0".toList, "APPEND.S \"t\"".toList, "FINALIZE.NEW".toList] =
    some [0x12, 0x00, 0x00, 0x00, 0x00, 0x20, 0x01, 0x00, 0x00, 0x00, 0x74, 0x30, 0x10, 0x00, 0x00, 0x00] ∧
  assembleText false ["INIT.M128DEF 0".toList, "APPEND.S \"t\"".toList, "FINALIZE.NEW".toList] =
    some [0x11, 0x00, 0x00, 0x00, 0x00, 0x20, 0x01, 0x00, 0x00, 0x00, 0x74, 0x30, 0x10, 0x00, 0x00, 0x00] ∧
  assembleText false ["INIT.M128X64 0x9747b28c".toList, "HSIZE".toList, "APPEND []".toList] =
    some [0x12, 0x8c, 0xb2, 0x47, 0x97, 0x40, 0x00, 0x00, 0x00, 0x00, 0x20, 0x00, 0x00, 0x00, 0x00] ∧
  assembleText false ["HASH.M32 293, [1,2]".toList] =
    some [0x10, 0x25, 0x01, 0x00, 0x00, 0x20, 0x02, 0x00, 0x00, 0x00, 0x01, 0x02, 0x30, 0x04, 0x00, 0x00, 0x00] ∧
  assembleText false ["HASH.M128X86 5, []".toList] =
    some [0x11, 0x05, 0x00, 0x00, 0x00, 0x20, 0x00, 0x00, 0x00, 0x00, 0x30, 0x10, 0x00, 0x00, 0x00] ∧
  assembleText false ["HASH.M128X64 0x9747b28c, [0x74]".toList] =
    some [0x12, 0x8c, 0xb2, 0x47, 0x97, 0x20, 0x01, 0x00, 0x00, 0x00, 0x74, 0x30, 0x10, 0x00, 0x00, 0x00] ∧
  (∀ native64, expand native64 none .finalizeNew = none) ∧
  assembleText false ["FINALIZE.NEW".toList] = none ∧
  assembleText false ["INIT.M128X64 0x100000000".toList] = none ∧
  assembleText false ["RESET".toList] = none
end

