-- ==== Sys2Proof/Laws/Bytes.lean ====
section
/-! SUPPORT. Lengths and bounds of the byte-order helpers and of the byte-space accesses. -/

namespace Sys2Proof

@[simp] theorem length_bytesOf (n v : Nat) : (bytesOf n v).length = n := by
  induction n generalizing v with
  | zero => rfl
  | succ n ih => simp [bytesOf, ih]

/-- A little-endian value of `n` bytes is below `2 ^ (8 * n)`. -/
theorem le_lt (b : List Byte) : le b < 2 ^ (8 * b.length) := by
  induction b with
  | nil => simp [le]
  | cons x xs ih =>
    have hx : x.toNat < 2 ^ 8 := x.isLt
    have hp : 2 ^ (8 * (xs.length + 1)) = 256 * 2 ^ (8 * xs.length) := by
      rw [Nat.mul_succ, pow_add]; ring
    simp only [le, List.length_cons, hp]
    omega

@[simp] theorem le_nil : le [] = 0 := rfl

@[simp] theorem le_cons (x : Byte) (xs : List Byte) : le (x :: xs) = x.toNat + 256 * le xs := rfl

namespace Machine

@[simp] theorem length_memRead (space : List Byte) (addr n : Nat) :
    (memRead space addr n).length = min n (space.length - addr) := by
  simp [memRead]

/-- Reading from the front. -/
theorem memRead_zero (space : List Byte) (n : Nat) : memRead space 0 n = space.take n := by
  simp [memRead]

/-- Reading a whole space. -/
theorem memRead_all (space : List Byte) : memRead space 0 space.length = space := by
  simp [memRead]

/-- A write just past the end of a dense space lengthens it. -/
theorem memWrite_length (space b : List Byte) : memWrite space space.length b = space ++ b := by
  simp [memWrite]

/-- A write at index 0, cut to what was written, is what was written. -/
theorem take_memWrite_zero (space b : List Byte) : (memWrite space 0 b).take b.length = b := by
  simp [memWrite]

/-- A read after a write to the same place gives the bytes written. -/
theorem memRead_memWrite (space : List Byte) (addr : Nat) (b : List Byte) (h : addr ≤ space.length) :
    memRead (memWrite space addr b) addr b.length = b := by
  simp [memRead, memWrite, h]

/-- A write leaves every index before it alone. -/
theorem getElem?_memWrite_lt (space : List Byte) (addr i : Nat) (b : List Byte)
    (h : addr ≤ space.length) (hi : i < addr) : (memWrite space addr b)[i]? = space[i]? := by
  have hlen : i < (space.take addr).length := by simp; omega
  rw [memWrite, List.append_assoc, List.getElem?_append_left hlen, List.getElem?_take_of_lt hi]

/-- A write leaves every index after the bytes written alone. -/
theorem getElem?_memWrite_ge (space : List Byte) (addr i : Nat) (b : List Byte)
    (h : addr ≤ space.length) (hi : addr + b.length ≤ i) :
    (memWrite space addr b)[i]? = space[i]? := by
  have hlen : (space.take addr ++ b).length ≤ i := by simp; omega
  rw [memWrite, List.getElem?_append_right hlen, List.getElem?_drop]
  congr 1
  simp [h]
  omega

@[simp] theorem blockSize_pos (v : Variant) : 0 < blockSize v := by cases v <;> decide

@[simp] theorem shapeOf_initState (v : Variant) (seed : W32) : shapeOf (initState v seed) = v := by
  cases v <;> rfl

end Machine

end Sys2Proof
end

