-- ==== Sys2Proof/Laws/State.lean ====
section
/-! SUPPORT. One lemma per field of State per named update (Sys2Proof/Machine/Ops.lean and APPEND's update), each true
by unfolding the update once, so that no later proof unfolds a record update. -/

namespace Sys2Proof.Machine

@[simp] theorem respond_valid (r : Response) (s : State) : (respond r s).valid = s.valid := rfl
@[simp] theorem respond_fault (r : Response) (s : State) : (respond r s).fault = s.fault := rfl
@[simp] theorem respond_faultKind (r : Response) (s : State) : (respond r s).faultKind = s.faultKind := rfl
@[simp] theorem respond_variant (r : Response) (s : State) : (respond r s).variant = s.variant := rfl
@[simp] theorem respond_seed (r : Response) (s : State) : (respond r s).seed = s.seed := rfl
@[simp] theorem respond_h (r : Response) (s : State) : (respond r s).h = s.h := rfl
@[simp] theorem respond_totalLength (r : Response) (s : State) : (respond r s).totalLength = s.totalLength := rfl
@[simp] theorem respond_carry (r : Response) (s : State) : (respond r s).carry = s.carry := rfl
@[simp] theorem respond_log (r : Response) (s : State) : (respond r s).log = s.log ++ [r] := rfl
@[simp] theorem respond_stream (r : Response) (s : State) : (respond r s).stream = s.stream := rfl

@[simp] theorem raiseFault_valid (r : FaultRecord) (s : State) : (raiseFault r s).valid = s.valid := rfl
@[simp] theorem raiseFault_fault (r : FaultRecord) (s : State) : (raiseFault r s).fault = true := rfl
@[simp] theorem raiseFault_faultKind (r : FaultRecord) (s : State) : (raiseFault r s).faultKind = faultCode (faultKindOf r) := rfl
@[simp] theorem raiseFault_variant (r : FaultRecord) (s : State) : (raiseFault r s).variant = s.variant := rfl
@[simp] theorem raiseFault_seed (r : FaultRecord) (s : State) : (raiseFault r s).seed = s.seed := rfl
@[simp] theorem raiseFault_h (r : FaultRecord) (s : State) : (raiseFault r s).h = s.h := rfl
@[simp] theorem raiseFault_totalLength (r : FaultRecord) (s : State) : (raiseFault r s).totalLength = s.totalLength := rfl
@[simp] theorem raiseFault_carry (r : FaultRecord) (s : State) : (raiseFault r s).carry = s.carry := rfl
@[simp] theorem raiseFault_log (r : FaultRecord) (s : State) : (raiseFault r s).log = s.log ++ [.fault r] := rfl
@[simp] theorem raiseFault_stream (r : FaultRecord) (s : State) : (raiseFault r s).stream = s.stream := rfl

@[simp] theorem createInstance_valid (v : Variant) (seed : W32) (s : State) : (createInstance v seed s).valid = true := rfl
@[simp] theorem createInstance_fault (v : Variant) (seed : W32) (s : State) : (createInstance v seed s).fault = s.fault := rfl
@[simp] theorem createInstance_faultKind (v : Variant) (seed : W32) (s : State) : (createInstance v seed s).faultKind = s.faultKind := rfl
@[simp] theorem createInstance_variant (v : Variant) (seed : W32) (s : State) : (createInstance v seed s).variant = v := rfl
@[simp] theorem createInstance_seed (v : Variant) (seed : W32) (s : State) : (createInstance v seed s).seed = seed := rfl
@[simp] theorem createInstance_h (v : Variant) (seed : W32) (s : State) : (createInstance v seed s).h = initState v seed := rfl
@[simp] theorem createInstance_totalLength (v : Variant) (seed : W32) (s : State) : (createInstance v seed s).totalLength = 0 := rfl
@[simp] theorem createInstance_carry (v : Variant) (seed : W32) (s : State) : (createInstance v seed s).carry = [] := rfl
@[simp] theorem createInstance_log (v : Variant) (seed : W32) (s : State) : (createInstance v seed s).log = s.log := rfl
@[simp] theorem createInstance_stream (v : Variant) (seed : W32) (s : State) : (createInstance v seed s).stream = s.stream := rfl

@[simp] theorem resetInstance_valid (s : State) : (resetInstance s).valid = s.valid := rfl
@[simp] theorem resetInstance_fault (s : State) : (resetInstance s).fault = s.fault := rfl
@[simp] theorem resetInstance_faultKind (s : State) : (resetInstance s).faultKind = s.faultKind := rfl
@[simp] theorem resetInstance_variant (s : State) : (resetInstance s).variant = s.variant := rfl
@[simp] theorem resetInstance_seed (s : State) : (resetInstance s).seed = s.seed := rfl
@[simp] theorem resetInstance_h (s : State) : (resetInstance s).h = initState s.variant s.seed := rfl
@[simp] theorem resetInstance_totalLength (s : State) : (resetInstance s).totalLength = 0 := rfl
@[simp] theorem resetInstance_carry (s : State) : (resetInstance s).carry = [] := rfl
@[simp] theorem resetInstance_log (s : State) : (resetInstance s).log = s.log := rfl
@[simp] theorem resetInstance_stream (s : State) : (resetInstance s).stream = s.stream := rfl

@[simp] theorem withStream_valid (bytes : List Byte) (s : State) : (withStream bytes s).valid = s.valid := rfl
@[simp] theorem withStream_fault (bytes : List Byte) (s : State) : (withStream bytes s).fault = s.fault := rfl
@[simp] theorem withStream_faultKind (bytes : List Byte) (s : State) : (withStream bytes s).faultKind = s.faultKind := rfl
@[simp] theorem withStream_variant (bytes : List Byte) (s : State) : (withStream bytes s).variant = s.variant := rfl
@[simp] theorem withStream_seed (bytes : List Byte) (s : State) : (withStream bytes s).seed = s.seed := rfl
@[simp] theorem withStream_h (bytes : List Byte) (s : State) : (withStream bytes s).h = s.h := rfl
@[simp] theorem withStream_totalLength (bytes : List Byte) (s : State) : (withStream bytes s).totalLength = s.totalLength := rfl
@[simp] theorem withStream_carry (bytes : List Byte) (s : State) : (withStream bytes s).carry = s.carry := rfl
@[simp] theorem withStream_log (bytes : List Byte) (s : State) : (withStream bytes s).log = s.log := rfl
@[simp] theorem withStream_stream (bytes : List Byte) (s : State) : (withStream bytes s).stream = bytes := rfl

@[simp] theorem appendChunk_valid (src : List Byte) (s : State) : (appendChunk src s).valid = s.valid := rfl
@[simp] theorem appendChunk_fault (src : List Byte) (s : State) : (appendChunk src s).fault = s.fault := rfl
@[simp] theorem appendChunk_faultKind (src : List Byte) (s : State) : (appendChunk src s).faultKind = s.faultKind := rfl
@[simp] theorem appendChunk_variant (src : List Byte) (s : State) : (appendChunk src s).variant = s.variant := rfl
@[simp] theorem appendChunk_seed (src : List Byte) (s : State) : (appendChunk src s).seed = s.seed := rfl
@[simp] theorem appendChunk_log (src : List Byte) (s : State) : (appendChunk src s).log = s.log := rfl
@[simp] theorem appendChunk_stream (src : List Byte) (s : State) : (appendChunk src s).stream = s.stream := rfl
@[simp] theorem appendChunk_totalLength (src : List Byte) (s : State) :
    (appendChunk src s).totalLength = s.totalLength + BitVec.ofNat 64 src.length := rfl

@[simp] theorem carryLen_eq (s : State) : carryLen s = s.carry.length := rfl
@[simp] theorem readCarry_eq (s : State) (addr : Nat) : readCarry s addr = s.carry[addr]? := rfl
@[simp] theorem hardwareReset_eq (s : State) : hardwareReset s = withStream s.stream State.reset := rfl

/-- Presenting a stream twice leaves the last one. -/
@[simp] theorem withStream_withStream (a b : List Byte) (s : State) :
    withStream a (withStream b s) = withStream a s := rfl

/-- Presenting the stream that is already there changes nothing. -/
@[simp] theorem withStream_self (s : State) : withStream s.stream s = s := rfl

/-! Presenting a stream commutes with every other update: no command reads the stream. -/

@[simp] theorem respond_withStream (r : Response) (a : List Byte) (s : State) :
    respond r (withStream a s) = withStream a (respond r s) := rfl
@[simp] theorem raiseFault_withStream (r : FaultRecord) (a : List Byte) (s : State) :
    raiseFault r (withStream a s) = withStream a (raiseFault r s) := rfl
@[simp] theorem createInstance_withStream (v : Variant) (seed : W32) (a : List Byte) (s : State) :
    createInstance v seed (withStream a s) = withStream a (createInstance v seed s) := rfl
@[simp] theorem resetInstance_withStream (a : List Byte) (s : State) :
    resetInstance (withStream a s) = withStream a (resetInstance s) := rfl
@[simp] theorem appendChunk_withStream (src a : List Byte) (s : State) :
    appendChunk src (withStream a s) = withStream a (appendChunk src s) := rfl
@[simp] theorem digestOf_withStream (a : List Byte) (s : State) :
    digestOf (withStream a s) = digestOf s := rfl

end Sys2Proof.Machine
end

