-- ==== Sys2Proof/Laws/Ops.lean ====
section
/-! SUPPORT. What the shared guards of Sys2Proof/Machine/Flags.lean and the meanings can answer, said once: an equation
where the checks pass, and an inversion lemma for each command that answers a next state. -/

namespace Sys2Proof.Machine

variable {s t : State} {k : Result}

theorem whenRunning_of_running (h : s.fault = false) : whenRunning s k = k := by
  simp [whenRunning, h]

theorem whenRunning_of_fault (h : s.fault = true) : whenRunning s k = .fault .latched := by
  simp [whenRunning, h]

/-- A guarded command answers a next state only while no fault is latched. -/
theorem whenRunning_next (h : whenRunning s k = .next t) : s.fault = false ∧ k = .next t := by
  unfold whenRunning at h
  split at h
  · cases h
  · exact ⟨by simpa using ‹¬s.fault = true›, h⟩

theorem whenInstance_of_valid {op : Byte} (h : s.valid = true) : whenInstance op s k = k := by
  simp [whenInstance, h]

theorem whenInstance_of_invalid {op : Byte} (h : s.valid = false) :
    whenInstance op s k = .next (raiseFault (.noInstance op) s) := by
  simp [whenInstance, h]

/-- With an instance the command goes on; without one it raises `NoInstance`. -/
theorem whenInstance_next {op : Byte} (h : whenInstance op s k = .next t) :
    (s.valid = true ∧ k = .next t) ∨ (s.valid = false ∧ t = raiseFault (.noInstance op) s) := by
  unfold whenInstance at h
  split at h
  · exact .inl ⟨‹_›, h⟩
  · cases h; exact .inr ⟨by simpa using ‹¬s.valid = true›, rfl⟩

/-- With the right destination length FINALIZE goes on; otherwise it raises `DestLength`. -/
theorem whenDestLength_next {dlen : W32} (h : whenDestLength dlen s k = .next t) :
    (dlen.toNat = hashSize s.variant ∧ k = .next t) ∨
    (dlen.toNat ≠ hashSize s.variant ∧
      t = raiseFault (.destLength dlen (hashSize s.variant)) s) := by
  unfold whenDestLength at h
  split at h
  · exact .inl ⟨‹_›, h⟩
  · cases h; exact .inr ⟨‹_›, rfl⟩

theorem execInitM32_next {seed : W32} (h : execInitM32 seed s = .next t) :
    s.fault = false ∧ t = createInstance .v32 seed s := by
  obtain ⟨hf, h⟩ := whenRunning_next h
  cases h; exact ⟨hf, rfl⟩

theorem execInitM128x86_next {seed : W32} (h : execInitM128x86 seed s = .next t) :
    s.fault = false ∧ t = createInstance .v128x86 seed s := by
  obtain ⟨hf, h⟩ := whenRunning_next h
  cases h; exact ⟨hf, rfl⟩

theorem execInitM128x64_next {seed : W32} (h : execInitM128x64 seed s = .next t) :
    s.fault = false ∧ t = createInstance .v128x64 seed s := by
  obtain ⟨hf, h⟩ := whenRunning_next h
  cases h; exact ⟨hf, rfl⟩

theorem execHsize_next (h : execHsize s = .next t) :
    s.fault = false ∧
    ((s.valid = true ∧ t = respond (.size (BitVec.ofNat 8 (hashSize s.variant))) s) ∨
     (s.valid = false ∧ t = raiseFault (.noInstance 0x40) s)) := by
  obtain ⟨hf, h⟩ := whenRunning_next h
  obtain ⟨hv, h⟩ | ⟨hv, h⟩ := whenInstance_next h
  · cases h; exact ⟨hf, .inl ⟨hv, rfl⟩⟩
  · exact ⟨hf, .inr ⟨hv, h⟩⟩

theorem execAppend_next {payload : List Byte} (h : execAppend payload s = .next t) :
    s.fault = false ∧
    ((s.valid = true ∧ t = appendChunk payload s) ∨
     (s.valid = false ∧ t = raiseFault (.noInstance 0x20) s)) := by
  obtain ⟨hf, h⟩ := whenRunning_next h
  obtain ⟨hv, h⟩ | ⟨hv, h⟩ := whenInstance_next h
  · cases h; exact ⟨hf, .inl ⟨hv, rfl⟩⟩
  · exact ⟨hf, .inr ⟨hv, h⟩⟩

theorem execFinalize_next {dlen : W32} (h : execFinalize dlen s = .next t) :
    s.fault = false ∧
    ((s.valid = true ∧ dlen.toNat = hashSize s.variant ∧
        t = resetInstance (respond (.digest (digestOf s)) s)) ∨
     (s.valid = true ∧ dlen.toNat ≠ hashSize s.variant ∧
        t = raiseFault (.destLength dlen (hashSize s.variant)) s) ∨
     (s.valid = false ∧ t = raiseFault (.noInstance 0x30) s)) := by
  obtain ⟨hf, h⟩ := whenRunning_next h
  obtain ⟨hv, h⟩ | ⟨hv, h⟩ := whenInstance_next h
  · obtain ⟨hd, h⟩ | ⟨hd, h⟩ := whenDestLength_next h
    · cases h; exact ⟨hf, .inl ⟨hv, hd, rfl⟩⟩
    · exact ⟨hf, .inr (.inl ⟨hv, hd, h⟩)⟩
  · exact ⟨hf, .inr (.inr ⟨hv, h⟩)⟩

/-- No command answers a refusal. -/
theorem exec_not_refused (i : Instr) (s : State) (r : Refusal) : exec i s ≠ .refused r := by
  cases i <;>
    simp only [exec, execInitM32, execInitM128x86, execInitM128x64, execAppend, execFinalize,
      execHsize, whenRunning, whenInstance, whenDestLength] <;>
    repeat' split
  all_goals simp

/-- A command answers a fault exactly while one is latched. -/
theorem exec_fault_iff (i : Instr) (s : State) (r : Fault) :
    exec i s = .fault r ↔ s.fault = true := by
  cases r
  cases i <;>
    simp only [exec, execInitM32, execInitM128x86, execInitM128x64, execAppend, execFinalize,
      execHsize, whenRunning, whenInstance, whenDestLength] <;>
    repeat' split
  all_goals simp_all

end Sys2Proof.Machine
end

