-- ==== Sys2Proof/Laws/Append.lean ====
section
/-! SUPPORT. What each step of APPEND can do, said once, and that APPEND and the other operations that write the CARRY
space keep its canonical form `carryWf` (spec/10_state.md R27). -/

namespace Sys2Proof.Machine

/-- Step 1 on a carry shorter than a block: nothing buffered; the chunk does not fill it; or it fills exactly and is
mixed (R162, R163). -/
theorem fillCarry_cases (bs : Nat) (h : WordTuple) (carry src : List Byte) (hc : carry.length < bs) :
    (carry = [] ∧ fillCarry bs h carry src = ⟨h, [], 0⟩) ∨
    (carry ≠ [] ∧ src.length < bs - carry.length ∧
      fillCarry bs h carry src = ⟨h, carry ++ src, src.length⟩) ∨
    (carry ≠ [] ∧ bs - carry.length ≤ src.length ∧
      fillCarry bs h carry src =
        ⟨mixBlock h (carry ++ src.take (bs - carry.length)), [], bs - carry.length⟩) := by
  by_cases h0 : carry = []
  · left; subst h0; simp [fillCarry]
  · have hpos : carry.length > 0 := List.length_pos_iff.mpr h0
    right
    by_cases hs : src.length < bs - carry.length
    · left
      have hmin : min src.length (bs - carry.length) = src.length := by omega
      have hne : carry.length + src.length ≠ bs := by omega
      refine ⟨h0, hs, ?_⟩
      simp [fillCarry, hmin, memRead_all, memWrite_length, hne, h0]
    · right
      have hmin : min src.length (bs - carry.length) = bs - carry.length := by omega
      have hlen : (carry ++ src.take (bs - carry.length)).length = bs := by simp; omega
      have htake : (carry ++ src.take (bs - carry.length)).take bs =
          carry ++ src.take (bs - carry.length) := List.take_of_length_le hlen.le
      refine ⟨h0, by omega, ?_⟩
      simp only [fillCarry, hpos, ↓reduceIte, hmin, memRead_zero, memWrite_length, hlen, htake]

/-- Step 3 keeps what step 1 left when nothing remains, else takes exactly the remainder (R165). -/
theorem keepRemainder_eq (carry remainder : List Byte) :
    keepRemainder carry remainder = if remainder = [] then carry else remainder := by
  by_cases h : remainder = []
  · simp [keepRemainder, h]
  · have : remainder.length > 0 := List.length_pos_iff.mpr h
    simp only [keepRemainder, this, ↓reduceIte, take_memWrite_zero, h]

/-- The carry is wf exactly when it is shorter than a block. -/
@[simp] theorem carryWf_iff (v : Variant) (carry : List Byte) :
    carryWf v carry = true ↔ carry.length < blockSize v := by
  simp [carryWf]

/-- The empty carry is wf: INIT, the instance reset and hardware reset leave it so. -/
theorem carryWf_nil (v : Variant) : carryWf v [] = true := by
  simp

theorem createInstance_carryWf (v : Variant) (seed : W32) (s : State) :
    carryWf (createInstance v seed s).variant (createInstance v seed s).carry = true := by
  simp

theorem resetInstance_carryWf (s : State) :
    carryWf (resetInstance s).variant (resetInstance s).carry = true := by
  simp

theorem reset_carryWf : carryWf State.reset.variant State.reset.carry = true := by decide

/-- APPEND keeps the carry shorter than a block (R167). -/
theorem appendChunk_carryWf (src : List Byte) (s : State) (hc : carryWf s.variant s.carry = true) :
    carryWf (appendChunk src s).variant (appendChunk src s).carry = true := by
  have hb := blockSize_pos s.variant
  rw [carryWf_iff] at hc ⊢
  simp only [appendChunk_variant]
  simp only [appendChunk, keepRemainder_eq]
  split
  · obtain ⟨_, hw⟩ | ⟨_, hlt, hw⟩ | ⟨_, _, hw⟩ := fillCarry_cases _ s.h s.carry src hc
    · simp [hw]
    · simp [hw]; omega
    · simp [hw]
  · simp only [length_memRead]
    have := Nat.mod_lt (src.length - (fillCarry (blockSize s.variant) s.h s.carry src).pos) hb
    omega

/-- Mixing a block keeps the shape of the state (R130). -/
@[simp] theorem shapeOf_mixBlock (h : WordTuple) (b : List Byte) :
    shapeOf (mixBlock h b) = shapeOf h := by
  cases h <;> simp only [mixBlock, shapeOf]

@[simp] theorem shapeOf_mixBlocks (bs q : Nat) (h : WordTuple) (src : List Byte) :
    shapeOf (mixBlocks bs q h src) = shapeOf h := by
  induction q generalizing h src with
  | zero => rfl
  | succ q ih => simp [mixBlocks, ih]

end Sys2Proof.Machine
end

