-- ==== Sys2Proof/Laws/Assembler.lean ====
section
/-! SUPPORT. What the assembler does with a program cut in two, said once (spec/30_encoding.md R89). -/

namespace Sys2Proof.Machine

/-- The live variant after two runs of commands. -/
theorem liveAfter_append (live : Option Variant) (is js : List Instr) :
    liveAfter live (is ++ js) = liveAfter (liveAfter live is) js := by
  induction is generalizing live with
  | nil => rfl
  | cons i is ih => exact ih _

/-- A program assembles line by line: what follows sees only the live variant of what stands before. -/
theorem assembleFrom_append (native64 : Bool) (live : Option Variant) (ls ms : List AsmLine) :
    assembleFrom native64 live (ls ++ ms) =
      (assembleFrom native64 live ls).bind fun is =>
        (assembleFrom native64 (liveAfter live is) ms).map (is ++ ·) := by
  induction ls generalizing live with
  | nil => simp [assembleFrom, liveAfter]
  | cons l ls ih =>
    simp only [List.cons_append, assembleFrom]
    split
    · rfl
    · split
      · simp only [ih, Option.map_bind, Option.bind_map, Function.comp_def, Option.map_map,
          liveAfter_append, List.append_assoc]
      · rfl

end Sys2Proof.Machine
end

