-- ==== Sys2Proof/Laws/PerInstr.lean ====
section
/-! SUPPORT. Statements about every command as syntax, one lemma per constructor of Instr. -/

namespace Sys2Proof.Laws.EncodeLength

/-- A command is its five header bytes, the first of them its opcode, and its payload (spec/30_encoding.md R81, R84). -/
def Statement (i : Instr) : Prop :=
  (encode i).length = Config.headerBytes + (payloadOf i).length ∧
  (encode i).head? = some (opcodeOf i) ∧
  (encode i).drop Config.headerBytes = payloadOf i

theorem initM32 (seed : W32) : Statement (.initM32 seed) :=
  ⟨rfl, rfl, rfl⟩

theorem initM128x86 (seed : W32) : Statement (.initM128x86 seed) :=
  ⟨rfl, rfl, rfl⟩

theorem initM128x64 (seed : W32) : Statement (.initM128x64 seed) :=
  ⟨rfl, rfl, rfl⟩

theorem append (payload : List Byte) : Statement (.append payload) := by
  refine ⟨?_, rfl, rfl⟩
  simp [encode, Config.headerBytes]
  omega

theorem finalize (dlen : W32) : Statement (.finalize dlen) :=
  ⟨rfl, rfl, rfl⟩

theorem hsize : Statement .hsize :=
  ⟨rfl, rfl, rfl⟩

end Sys2Proof.Laws.EncodeLength
end

