-- ==== Sys2Proof/Laws/Step.lean ====
section
/-! SUPPORT. What one step can do, said once. -/

namespace Sys2Proof.Machine

/-- A step that answers a next state ran with no fault latched, and either executed the command at the front of the
stream or raised `IllegalCommand` on an illegal header there. -/
theorem step_cases {s t : State} (h : step s = .next t) :
    s.fault = false ∧
    ((∃ i rest, decode s.stream = .command i rest ∧ exec i (withStream rest s) = .next t) ∨
     (∃ hdr rest, decode s.stream = .illegal hdr rest ∧
        t = raiseFault (.illegalCommand hdr) (withStream rest s))) := by
  unfold step at h
  split at h
  · cases h
  · refine ⟨by simpa using ‹¬s.fault = true›, ?_⟩
    split at h
    · exact .inl ⟨_, _, ‹_›, h⟩
    · cases h; exact .inr ⟨_, _, ‹_›, rfl⟩
    · cases h

/-- Every command, in the form of the one inversion lemma of its meaning: what `exec` can answer as a next state. -/
theorem exec_cases {i : Instr} {s t : State} (h : exec i s = .next t) :
    s.fault = false ∧
    ((∃ v seed, t = createInstance v seed s ∧
        (i = .initM32 seed ∧ v = .v32 ∨ i = .initM128x86 seed ∧ v = .v128x86 ∨
          i = .initM128x64 seed ∧ v = .v128x64)) ∨
     (∃ payload, i = .append payload ∧ s.valid = true ∧ t = appendChunk payload s) ∨
     (∃ dlen, i = .finalize dlen ∧ s.valid = true ∧ dlen.toNat = hashSize s.variant ∧
        t = resetInstance (respond (.digest (digestOf s)) s)) ∨
     (i = .hsize ∧ s.valid = true ∧ t = respond (.size (BitVec.ofNat 8 (hashSize s.variant))) s) ∨
     (s.valid = false ∧ (opcodeOf i = 0x20 ∨ opcodeOf i = 0x30 ∨ opcodeOf i = 0x40) ∧
        t = raiseFault (.noInstance (opcodeOf i)) s) ∨
     (∃ dlen, i = .finalize dlen ∧ s.valid = true ∧ dlen.toNat ≠ hashSize s.variant ∧
        t = raiseFault (.destLength dlen (hashSize s.variant)) s)) := by
  cases i with
  | initM32 seed =>
    obtain ⟨hf, ht⟩ := execInitM32_next h
    exact ⟨hf, .inl ⟨_, _, ht, .inl ⟨rfl, rfl⟩⟩⟩
  | initM128x86 seed =>
    obtain ⟨hf, ht⟩ := execInitM128x86_next h
    exact ⟨hf, .inl ⟨_, _, ht, .inr (.inl ⟨rfl, rfl⟩)⟩⟩
  | initM128x64 seed =>
    obtain ⟨hf, ht⟩ := execInitM128x64_next h
    exact ⟨hf, .inl ⟨_, _, ht, .inr (.inr ⟨rfl, rfl⟩)⟩⟩
  | append payload =>
    obtain ⟨hf, ⟨hv, ht⟩ | ⟨hv, ht⟩⟩ := execAppend_next h
    · exact ⟨hf, .inr (.inl ⟨_, rfl, hv, ht⟩)⟩
    · exact ⟨hf, .inr (.inr (.inr (.inr (.inl ⟨hv, .inl rfl, ht⟩))))⟩
  | finalize dlen =>
    obtain ⟨hf, ⟨hv, hd, ht⟩ | ⟨hv, hd, ht⟩ | ⟨hv, ht⟩⟩ := execFinalize_next h
    · exact ⟨hf, .inr (.inr (.inl ⟨_, rfl, hv, hd, ht⟩))⟩
    · exact ⟨hf, .inr (.inr (.inr (.inr (.inr ⟨_, rfl, hv, hd, ht⟩))))⟩
    · exact ⟨hf, .inr (.inr (.inr (.inr (.inl ⟨hv, .inr (.inl rfl), ht⟩))))⟩
  | hsize =>
    obtain ⟨hf, ⟨hv, ht⟩ | ⟨hv, ht⟩⟩ := execHsize_next h
    · exact ⟨hf, .inr (.inr (.inr (.inl ⟨rfl, hv, ht⟩)))⟩
    · exact ⟨hf, .inr (.inr (.inr (.inr (.inl ⟨hv, .inr (.inr rfl), ht⟩))))⟩

end Sys2Proof.Machine
end

