-- ==== Sys2Proof/Tests/Slice0.lean ====
section
/-! SUPPORT. The model's own tests: the WellFormed smoke, each row's word written out from spec/30_encoding.md R81 and
R83, one-step tests with results taken from spec/95_test_vectors.md, and for each statement with hypotheses a witness
that meets them. -/

namespace Sys2Proof.Machine

/-! ## Small states -/

/-- A freshly created instance (R233) after hardware reset. -/
def fresh (v : Variant) (seed : W32) : State :=
  createInstance v seed State.reset

/-- A fresh instance that has buffered some bytes. -/
def buffering (v : Variant) (bytes : List Byte) : State :=
  { fresh v 0 with carry := bytes, totalLength := BitVec.ofNat 64 bytes.length }

/-- An engine with a fault latched (R254). -/
def stuck : State :=
  raiseFault (.noInstance 0x40) State.reset

/-- The next state, where there is one. -/
def nextOf (r : Result) : Option State :=
  match r with
  | .next t => some t
  | .fault _ => none
  | .refused _ => none

/-- The last record a command appends. -/
def lastRecord (r : Result) : Option Response :=
  (nextOf r).bind fun t => t.log.getLast?

/-! ## Well-formedness: the one check refuses a payload of `2 ^ 32` bytes (R82) -/

theorem test_wf_refuses_long_payload : (Instr.append (List.replicate (2 ^ 32) 0)).wf = false := by
  simp only [Instr.wf, List.length_replicate]
  decide

theorem test_wf_accepts_longest_payload : (Instr.append (List.replicate (2 ^ 32 - 1) 0)).wf = true := by
  simp only [Instr.wf, List.length_replicate]
  decide

/-! ## Decoding: each row's bytes in stream order (R81: the opcode, then `imm32` with its low byte first) -/

theorem test_decode_init_m32 :
    decode [0x10, 0x04, 0x03, 0x02, 0x01] = .command (.initM32 0x01020304) [] := by decide

theorem test_decode_init_m128x86 :
    decode [0x11, 0x00, 0x00, 0x00, 0x80] = .command (.initM128x86 0x80000000) [] := by decide

theorem test_decode_init_m128x64 :
    decode [0x12, 0xff, 0xff, 0xff, 0xff] = .command (.initM128x64 0xffffffff) [] := by decide

theorem test_decode_append :
    decode [0x20, 0x03, 0x00, 0x00, 0x00, 0x40, 0x13, 0xff, 0x10] =
      .command (.append [0x40, 0x13, 0xff]) [0x10] := by decide

theorem test_decode_finalize :
    decode [0x30, 0x00, 0x01, 0x00, 0x00] = .command (.finalize 256) [] := by decide

theorem test_decode_hsize : decode [0x40, 0x00, 0x00, 0x00, 0x00] = .command .hsize [] := by decide

/-- X4: illegal headers, the unused fourth INIT slot and a non-zero HSIZE immediate among them. -/
theorem test_decode_illegal :
    decode [0x00, 0x00, 0x00, 0x00, 0x00] = .illegal [0x00, 0x00, 0x00, 0x00, 0x00] [] ∧
    decode [0xff, 0xff, 0xff, 0xff, 0xff] = .illegal [0xff, 0xff, 0xff, 0xff, 0xff] [] ∧
    decode [0x13, 0x00, 0x00, 0x00, 0x00] = .illegal [0x13, 0x00, 0x00, 0x00, 0x00] [] ∧
    decode [0x21, 0x00, 0x00, 0x00, 0x00] = .illegal [0x21, 0x00, 0x00, 0x00, 0x00] [] ∧
    decode [0x40, 0x01, 0x00, 0x00, 0x00] = .illegal [0x40, 0x01, 0x00, 0x00, 0x00] [] := by decide

/-- R91: a stream that ends inside a header or a payload. -/
theorem test_decode_incomplete :
    decode [0x10, 0x00, 0x00, 0x00] = .incomplete ∧
    decode [0x20, 0x02, 0x00, 0x00, 0x00, 0x74] = .incomplete := by decide

/-- The `cw` column of spec/95_test_vectors.md X1, numbered as the opcode table numbers bits. -/
theorem test_decode_table_word :
    decodeTableWord 40 0x0000000110 = some (.initM32 1) ∧
    decodeTableWord 40 0x0000000020 = some (.append []) ∧
    decodeTableWord 40 0x0000001030 = some (.finalize 16) ∧
    decodeTableWord 40 0x0000000040 = some .hsize ∧
    decodeTableWord 40 0x0000000013 = none := by decide

/-- A presented table word is what the first step after reset runs. -/
theorem test_with_fetch_word :
    step (State.reset.withFetchWord 40 0x0000000112) = exec (.initM128x64 1) State.reset := rfl

/-! ## INIT -/

/-- V1: `INIT.M32 293` gives `h1 = 0x00000125`. -/
theorem test_init_m32 :
    (nextOf (exec (.initM32 293) State.reset)).map (fun t => (t.valid, t.variant, t.h, t.carry)) =
      some (true, .v32, .v32 0x00000125, []) := by decide

/-- R235: an INIT on a live instance replaces it, buffered bytes and count included. -/
theorem test_init_m32_replaces :
    (nextOf (exec (.initM32 7) (buffering .v128x64 [1, 2, 3]))).map
        (fun t => (t.variant, t.totalLength, t.carry, t.seed)) = some (.v32, 0, [], 7) := by decide

/-- X28: `INIT.M128X86 293`. -/
theorem test_init_m128x86 :
    (nextOf (exec (.initM128x86 293) State.reset)).map (fun t => (t.variant, t.h)) =
      some (.v128x86, .v128x86 ⟨0x125, 0x125, 0x125, 0x125⟩) := by decide

/-- X28: `INIT.M128X64 0xffffffff`: the upper halves of both words are zero. -/
theorem test_init_m128x64 :
    (nextOf (exec (.initM128x64 0xffffffff) State.reset)).map (fun t => (t.variant, t.h)) =
      some (.v128x64, .v128x64 ⟨0x00000000ffffffff, 0x00000000ffffffff⟩) := by decide

/-! ## APPEND -/

/-- V1: one block mixed, two bytes kept. -/
theorem test_append_mixes_and_keeps :
    (nextOf (exec (.append [1, 2, 3, 4, 5, 6]) (fresh .v32 293))).map
        (fun t => (t.h, t.carry, t.totalLength)) = some (.v32 0x4f3b4727, [5, 6], 6) := by decide

/-- R165: a chunk that does not fill a non-empty carry must not clear it. -/
theorem test_append_keeps_unfilled_carry :
    (nextOf (exec (.append [0xbb, 0xcc]) (buffering .v32 [0xaa]))).map
        (fun t => (t.h, t.carry, t.totalLength)) =
      some (.v32 0, [0xaa, 0xbb, 0xcc], 3) := by decide

/-! ## FINALIZE -/

/-- V1: the digest `b0 19 4d e2`, from the state V1 gives after its APPEND. -/
theorem test_finalize_v32 :
    lastRecord (exec (.finalize 4)
        { fresh .v32 293 with h := .v32 0x4f3b4727, carry := [5, 6], totalLength := 6 }) =
      some (.digest [0xb0, 0x19, 0x4d, 0xe2]) := by decide

/-- V6 and V7: the digests of `"t"` with seed 0. -/
theorem test_finalize_128 :
    lastRecord (exec (.finalize 16) (buffering .v128x86 [0x74])) =
      some (.digest [0x16, 0x28, 0x1b, 0x55, 0x22, 0xc1, 0x8c, 0x13, 0x22, 0xc1, 0x8c, 0x13,
        0x22, 0xc1, 0x8c, 0x13]) ∧
    lastRecord (exec (.finalize 16) (buffering .v128x64 [0x74])) =
      some (.digest [0xe6, 0x4c, 0x0a, 0x63, 0x70, 0xbc, 0x7d, 0x68, 0x4c, 0xd8, 0xd6, 0x70,
        0x43, 0xac, 0x65, 0x18]) := by decide

/-! ## HSIZE -/

/-- R234: 4 for `V32`, 16 otherwise. -/
theorem test_hsize :
    lastRecord (exec .hsize (fresh .v32 7)) = some (.size 4) ∧
    lastRecord (exec .hsize (fresh .v128x86 7)) = some (.size 16) ∧
    lastRecord (exec .hsize (fresh .v128x64 7)) = some (.size 16) := by decide

/-- X29: HSIZE with no instance. -/
theorem test_hsize_without_instance :
    lastRecord (exec .hsize State.reset) = some (.fault (.noInstance 0x40)) := by decide

/-! ## Faults and hardware reset -/

/-- X29: the faults in priority order (R255): `FINALIZE 3` without an instance, then with one. -/
theorem test_fault_priority :
    lastRecord (exec (.finalize 3) State.reset) = some (.fault (.noInstance 0x30)) ∧
    lastRecord (exec (.finalize 3) (buffering .v32 [1, 2, 3])) = some (.fault (.destLength 3 4)) ∧
    lastRecord (step (withStream [0x77, 0, 0, 0, 0] State.reset)) =
      some (.fault (.illegalCommand [0x77, 0, 0, 0, 0])) := by decide

/-- R252: a fault leaves the buffered bytes and their count alone. -/
theorem test_fault_is_precise :
    (nextOf (exec (.finalize 3) (buffering .v32 [1, 2, 3]))).map
        (fun t => (t.fault, t.faultKind, t.carry, t.totalLength)) =
      some (true, 3, [1, 2, 3], 3) := by decide

/-- R280: hardware reset clears the fault and loses the instance; R254: before it nothing runs. -/
theorem test_hardware_reset :
    (hardwareReset stuck).fault = false ∧ (hardwareReset (fresh .v32 1)).valid = false ∧
    step (withStream [0x10, 0, 0, 0, 0] stuck) = .fault .latched := ⟨rfl, rfl, rfl⟩

/-! ## Witnesses: for each statement with hypotheses, inputs that meet them, at the boundaries of each clause -/

theorem test_witness_DecodeOfEncode :
    (Instr.initM32 0xffffffff).wf = true ∧ (Instr.append []).wf = true ∧ (Instr.finalize 0).wf = true ∧
    Instr.hsize.wf = true ∧ (Instr.append (List.replicate (2 ^ 32 - 1) 0xff)).wf = true := by
  simp only [Instr.wf, List.length_replicate]
  decide

theorem test_witness_DecoderTotalAndFaithful :
    decode [] = .incomplete ∧ decode [0x20, 0x01, 0, 0, 0] = .incomplete ∧
    decode [0x20, 0x01, 0, 0, 0, 9] = .command (.append [9]) [] ∧
    decode [0x40, 0, 0, 0, 1, 7] = .illegal [0x40, 0, 0, 0, 1] [7] := by decide

theorem test_witness_EncodingsUnambiguous :
    Instr.hsize.wf = true ∧ (Instr.finalize 4).wf = true ∧
    encode .hsize ++ [1] = encode .hsize ++ [1] := by decide

theorem test_witness_IllegalEncodings :
    (withStream [0x13, 0, 0, 0, 0] State.reset).Running ∧
    (0x13 : Byte) ∉ ([0x10, 0x11, 0x12, 0x20, 0x30, 0x40] : List Byte) ∧
    (withStream [0x40, 1, 0, 0, 0] (fresh .v32 0)).Running ∧
    ([1, 0, 0, 0] : List Byte) ≠ [0, 0, 0, 0] ∧ ([0, 0, 0, 0x80] : List Byte) ≠ [0, 0, 0, 0] ∧
    (fresh .v32 0).Live ∧ (3 : W32).toNat ≠ hashSize (fresh .v32 0).variant ∧
    (17 : W32).toNat ≠ hashSize (fresh .v128x64 0).variant := by decide

theorem test_witness_HeaderFields :
    (Instr.initM128x64 0xffffffff).wf = true ∧ (Instr.append [1]).wf = true := by decide

theorem test_witness_StepRunsDecoded :
    (withStream [0x30, 4, 0, 0, 0, 0x40] State.reset).Running ∧
    decode (withStream [0x30, 4, 0, 0, 0, 0x40] State.reset).stream = .command (.finalize 4) [0x40] := by
  decide

theorem test_witness_NoStepWhileFaulted : stuck.fault = true := rfl

theorem test_witness_NoStepWithoutCommand :
    (State.reset.Running ∧ State.reset.stream = []) ∧
    ((withStream [0x40, 0, 0, 0] State.reset).Running ∧
      decode (withStream [0x40, 0, 0, 0] State.reset).stream = .incomplete) ∧
    stuck.fault = true := by decide

theorem test_witness_StreamRunsCommands :
    ∀ i ∈ [Instr.initM32 1, .append [1, 2], .finalize 4, .hsize], i.wf = true := by decide

/-- For the INIT statements: no fault latched, with and without an instance, and a latched fault. -/
theorem test_witness_InitCreates :
    State.reset.Running ∧ (fresh .v128x86 5).Running ∧ stuck.fault = true := by decide

theorem test_witness_HsizeReports :
    (State.reset.Running ∧ State.reset.valid = false) ∧
    ((fresh .v32 0).Running ∧ (fresh .v32 0).valid = true) ∧
    (withStream [0x40, 0, 0, 0, 1] (fresh .v32 0)).Running ∧
    ([0, 0, 0, 1] : List Byte) ≠ [0, 0, 0, 0] := by decide

theorem test_witness_FaultTable :
    ((withStream [0x13, 0, 0, 0, 0] State.reset).Running ∧
      (0x13 : Byte) ∉ ([0x10, 0x11, 0x12, 0x20, 0x30, 0x40] : List Byte) ∧
      ([0, 0, 0, 1] : List Byte) ≠ [0, 0, 0, 0]) ∧
    (opcodeOf (.append []) = 0x20 ∧ opcodeOf (.finalize 4) = 0x30 ∧ opcodeOf .hsize = 0x40 ∧
      State.reset.valid = false) ∧
    ((fresh .v32 0).Running ∧ (fresh .v32 0).valid = true ∧
      (5 : W32).toNat ≠ hashSize (fresh .v32 0).variant) ∧
    ∃ t, exec .hsize State.reset = .next t ∧ t.fault = true := by
  refine ⟨by decide, by decide, by decide, _, rfl, rfl⟩

theorem test_witness_DestLengthChecked :
    (fresh .v32 0).Live ∧ (fresh .v128x64 0).Live ∧
    (3 : W32).toNat < hashSize .v32 ∧ hashSize .v32 < (5 : W32).toNat ∧
    (4 : W32).toNat = hashSize .v32 ∧
    (15 : W32).toNat < hashSize .v128x64 ∧ hashSize .v128x64 < (17 : W32).toNat ∧
    (16 : W32).toNat = hashSize .v128x64 := by decide

theorem test_witness_FirstFailingCheckReported :
    stuck.fault = true ∧
    ((withStream [0x13, 0, 0, 0, 0] State.reset).Running ∧
      decode [0x13, 0, 0, 0, 0] = .illegal [0x13, 0, 0, 0, 0] []) ∧
    ((withStream [0x30, 3, 0, 0, 0] State.reset).Running ∧
      decode [0x30, 3, 0, 0, 0] = .command (.finalize 3) [] ∧
      (withStream [0x30, 3, 0, 0, 0] State.reset).valid = false ∧ opcodeOf (.finalize 3) = 0x30) ∧
    ((withStream [0x30, 3, 0, 0, 0] (fresh .v32 0)).Running ∧
      (withStream [0x30, 3, 0, 0, 0] (fresh .v32 0)).valid = true ∧
      (3 : W32).toNat ≠ hashSize (fresh .v32 0).variant) ∧
    ∃ t, step (withStream [0x40, 0, 0, 0, 0] State.reset) = .next t := by
  refine ⟨by decide, by decide, by decide, by decide, _, rfl⟩

theorem test_witness_FaultsArePrecise :
    (∃ t, step (withStream [0x40, 0, 0, 0, 0] State.reset) = .next t ∧ t.fault = true) ∧
    (∃ t, step (withStream [0x13, 0, 0, 0, 0] (fresh .v32 0)) = .next t ∧ t.fault = true) ∧
    ∃ t, step (withStream [0x30, 5, 0, 0, 0] (fresh .v32 0)) = .next t ∧ t.fault = true :=
  ⟨⟨_, rfl, rfl⟩, ⟨_, rfl, rfl⟩, ⟨_, rfl, rfl⟩⟩

theorem test_witness_OnlyInitSetsIdentity :
    (∃ t, exec .hsize (fresh .v32 1) = .next t) ∧ variantOfInit .hsize = none ∧
    (∃ t, exec (.initM32 2) (fresh .v128x64 1) = .next t) ∧
    variantOfInit (.initM32 2) = some .v32 ∧ (fresh .v128x64 1).valid = true :=
  ⟨⟨_, rfl⟩, rfl, ⟨_, rfl⟩, rfl, rfl⟩

theorem test_witness_ResponsesPerCommand :
    (∃ t, exec .hsize State.reset = .next t ∧ t.fault = true) ∧
    (∃ t, exec .hsize (fresh .v32 1) = .next t ∧ t.fault = false) ∧
    ∃ t, exec (.finalize 16) (fresh .v128x86 1) = .next t ∧ t.fault = false :=
  ⟨⟨_, rfl, rfl⟩, ⟨_, rfl, rfl⟩, ⟨_, rfl, rfl⟩⟩

theorem test_witness_LittleEndianLaws : (3 < 4) ∧ (0xffffffff < 2 ^ (8 * 4)) ∧ (0 < 2 ^ (8 * 0)) := by
  decide

theorem test_witness_BlockWordsLittleEndian :
    ([1, 2, 3, 4] : List Byte).length = 4 ∧ (List.replicate 16 (0xff : Byte)).length = 16 := by decide

theorem test_witness_BlockCodecRoundTrip :
    ([1, 2, 3, 4] : List Byte).length = blockSize .v32 ∧
    (List.replicate 16 (7 : Byte)).length = blockSize .v128x86 ∧
    (List.replicate 16 (7 : Byte)).length = blockSize .v128x64 := by decide

theorem test_witness_PartialWordZeroExtends :
    8 * ([] : List Byte).length ≤ 32 ∧ 8 * ([1, 2, 3] : List Byte).length ≤ 32 ∧
    8 * ([1, 2, 3, 4] : List Byte).length = 32 ∧ 8 * (List.replicate 8 (9 : Byte)).length = 64 := by decide

theorem test_witness_RotationMovesBits : 0 < 13 ∧ 13 < 32 ∧ 31 < 32 ∧ 0 < 33 ∧ 33 < 64 ∧ 63 < 64 := by
  decide

/-- For the statements whose only hypotheses name intermediate values: each is met by the value itself. -/
theorem test_witness_named_values :
    (∃ h1' : W64, h1' = (rotl ((1 : W64) ^^^ (rotl (3 * 0x87c37b91114253d5) 31 * 0x4cf5ad432745937f)) 27 + 2) * 5
      + 0x52dce729) ∧
    (∃ h1' : W32, h1' = (rotl ((1 : W32) ^^^ (rotl (5 * 0x239b961b) 15 * 0xab0e9789)) 19 + 2) * 5 + 0x561ccd1b) ∧
    (∃ a b c d : W32, a = 1 ^^^ ((1 : W32) >>> 16) ∧ b = a * 0x85ebca6b ∧ c = b ^^^ (b >>> 13) ∧
      d = c * 0xc2b2ae35) ∧
    (∃ (l : W32) (p : Quad), l = BitVec.ofNat 32 (7 : BitVec 64).toNat ∧
      p = propV128x86 ⟨1 ^^^ l, 2 ^^^ l, 3 ^^^ l, 4 ^^^ l⟩) :=
  ⟨⟨_, rfl⟩, ⟨_, rfl⟩, ⟨_, _, _, _, rfl, rfl, rfl, rfl⟩, ⟨_, _, rfl, rfl⟩⟩

/-- For the bijection statements that range over the lines of a mixer: the lists are not empty. -/
theorem test_witness_ScramblesAreBijections :
    lineX86w4 ∈ [lineV32, lineX86w1, lineX86w2, lineX86w3, lineX86w4] ∧
    lineX64w2 ∈ [lineX64w1, lineX64w2] := by decide

/-- Tails at the lengths where each clause begins and ends. -/
theorem test_witness_TailFoldByLength :
    ([] : List Byte).length < 4 ∧ ([1] : List Byte).length ≥ 1 ∧ ([1, 2, 3] : List Byte).length < 4 ∧
    (List.replicate 8 (1 : Byte)).length < 9 ∧ (List.replicate 9 (1 : Byte)).length ≥ 9 ∧
    (List.replicate 4 (1 : Byte)).length < 5 ∧ (List.replicate 13 (1 : Byte)).length ≥ 13 ∧
    (List.replicate 15 (1 : Byte)).length < 16 := by decide

theorem test_witness_TailFoldIsPaddedFirstHalves :
    ([1, 2, 3] : List Byte).length < 4 ∧ (List.replicate 15 (1 : Byte)).length < 16 ∧
    (∃ k, k = rdblkV128x86 ([1] ++ List.replicate (16 - 1) 0)) ∧
    ∃ k, k = rdblkV128x64 ([1] ++ List.replicate (16 - 1) 0) :=
  ⟨by decide, by decide, ⟨_, rfl⟩, ⟨_, rfl⟩⟩

theorem test_witness_AppendPreconditions :
    stuck.fault = true ∧ (State.reset.Running ∧ State.reset.valid = false) ∧
    ((fresh .v32 0).Running ∧ (fresh .v32 0).valid = true) := by decide

/-- For AppendClosedForm and StreamingEquivalence: carries at both ends of their range. -/
theorem test_witness_AppendClosedForm :
    ((fresh .v32 0).Live ∧ carryLen (fresh .v32 0) < blockSize (fresh .v32 0).variant) ∧
    ((buffering .v32 [1, 2, 3]).Live ∧
      carryLen (buffering .v32 [1, 2, 3]) < blockSize (buffering .v32 [1, 2, 3]).variant) ∧
    ((buffering .v128x64 (List.replicate 15 1)).Live ∧
      carryLen (buffering .v128x64 (List.replicate 15 1)) <
        blockSize (buffering .v128x64 (List.replicate 15 1)).variant) := by decide

theorem test_witness_ShortChunkOnlyBuffers :
    (buffering .v32 [1]).Live ∧
    carryLen (buffering .v32 [1]) + ([2, 3] : List Byte).length < blockSize (buffering .v32 [1]).variant := by
  decide

theorem test_witness_EmptyChunkChangesNothing :
    ((fresh .v32 0).Running ∧ carryLen (fresh .v32 0) < blockSize (fresh .v32 0).variant ∧
      (fresh .v32 0).valid = true) ∧
    (State.reset.Running ∧ carryLen State.reset < blockSize State.reset.variant ∧
      State.reset.valid = false) := by decide

theorem test_witness_StreamingEquivalence :
    (buffering .v128x86 [1]).Live ∧
    carryLen (buffering .v128x86 [1]) < blockSize (buffering .v128x86 [1]).variant ∧
    ([[1], [], [2, 3]] : List (List Byte)).flatten = ([[1, 2], [3]] : List (List Byte)).flatten := by decide

/-- For StateOfMessage and DigestOfMessage. -/
theorem test_witness_StateOfMessage :
    State.reset.Running ∧ (buffering .v128x64 [9]).Running ∧ (buffering .v128x64 [9]).Live := by decide

theorem test_witness_FinalizeCompletes :
    (State.reset.Running ∧ State.reset.valid = false) ∧
    ((fresh .v32 0).Live ∧ (16 : W32).toNat ≠ hashSize (fresh .v32 0).variant) ∧
    ((fresh .v32 0).Live ∧ (4 : W32).toNat = hashSize (fresh .v32 0).variant) := by decide

theorem test_witness_DigestFillsDestination :
    (buffering .v128x86 [1]).Live ∧ (buffering .v128x86 [1]).InstanceWf ∧
    ∃ t, exec (.finalize 16) (buffering .v128x86 [1]) = .next t ∧ t.fault = false :=
  ⟨by decide, by decide, _, rfl, rfl⟩

theorem test_witness_FinalizeThenLikeInit :
    (buffering .v32 [1, 2]).Live ∧
    (∃ t t', exec (finalizeOf .v32) (buffering .v32 [1, 2]) = .next t ∧
      execAll [.append [1], .hsize] t = .next t') ∧
    ∃ u u', exec (initOf .v32 0) (buffering .v32 [1, 2]) = .next u ∧
      execAll [.append [1], .hsize] u = .next u' :=
  ⟨by decide, ⟨_, _, rfl, rfl⟩, ⟨_, _, rfl, rfl⟩⟩

theorem test_witness_StepKeepsInstanceWf :
    (withStream [0x20, 1, 0, 0, 0, 9] (buffering .v32 [1, 2, 3])).InstanceWf ∧
    ∃ t, step (withStream [0x20, 1, 0, 0, 0, 9] (buffering .v32 [1, 2, 3])) = .next t :=
  ⟨by decide, _, rfl⟩

theorem test_witness_StepKeepsLogWf :
    (withStream [0x40, 0, 0, 0, 0] (respond (.size 4) (fresh .v32 0))).LogWf ∧ stuck.LogWf ∧
    ∃ t, step (withStream [0x40, 0, 0, 0, 0] (respond (.size 4) (fresh .v32 0))) = .next t :=
  ⟨by decide, by decide, _, rfl⟩

theorem test_witness_ResetState : ∃ r, hardwareReset stuck = hardwareReset r := ⟨_, rfl⟩

/-- For the four frames: each command at work, and where FINALIZE and HSIZE raise. -/
theorem test_witness_frames :
    (∃ t, exec (initOf .v32 1) State.reset = .next t) ∧
    ((buffering .v32 [1]).valid = true ∧ ∃ t, exec (.append [2]) (buffering .v32 [1]) = .next t) ∧
    carryLen (buffering .v32 [1]) + ([2, 3] : List Byte).length < blockSize (buffering .v32 [1]).variant ∧
    blockSize (buffering .v32 [1]).variant ≤ carryLen (buffering .v32 [1]) + ([2, 3, 4] : List Byte).length ∧
    (∃ t, exec (.finalize 4) (buffering .v32 [1]) = .next t ∧ t.fault = false) ∧
    (∃ t, exec (.finalize 5) (buffering .v32 [1]) = .next t ∧ t.fault = true) ∧
    (∃ t, exec .hsize (buffering .v32 [1]) = .next t) ∧ ∃ t, exec .hsize State.reset = .next t :=
  ⟨⟨_, rfl⟩, ⟨rfl, _, rfl⟩, by decide, by decide, ⟨_, rfl, rfl⟩, ⟨_, rfl, rfl⟩, ⟨_, rfl⟩, ⟨_, rfl⟩⟩

theorem test_witness_BeforeInitNothingIsRead :
    State.reset.valid = false ∧ { State.reset with seed := 7, carry := [1], h := .v32 9 }.valid = false ∧
    (∃ t, step (withStream [0x12, 1, 0, 0, 0] State.reset) = .next t ∧ t.valid = true) ∧
    ∃ t, step (withStream [0x40, 0, 0, 0, 0] State.reset) = .next t :=
  ⟨rfl, rfl, ⟨_, rfl, rfl⟩, _, rfl⟩

theorem test_witness_PseudoCommandExpansions :
    (∀ c ∈ ['t', ' '], c.toNat < 128) ∧
    (assembleFrom false none [.command (.initM128x64 1), .finalizeNew, .command (.initM32 2), .command (.append [3])] =
      some [.initM128x64 1, .finalize 16, .initM32 2, .append [3]] ∧
      [Instr.initM128x64 1, .finalize 16, .initM32 2, .append [3]].reverse.findSome? variantOfInit = some .v32) ∧
    ([1, 2] : List Byte).length < 2 ^ 32 ∧ (fresh .v128x64 3).Live :=
  ⟨by simp, by decide, by simp, by decide⟩

end Sys2Proof.Machine
end

section
/-! Little-endian bytes: the sum `le` is, the slices `bytesOf` takes, and that each undoes the other
(spec/00_scope.md R13). -/

namespace Sys2Proof

/-- The weight of a byte position is 256 times that of the position before it. -/
theorem two_pow_eight_mul_succ (n : Nat) : 2 ^ (8 * (n + 1)) = 256 * 2 ^ (8 * n) := by
  rw [Nat.mul_succ, Nat.pow_add, Nat.mul_comm]

theorem le_eq_sum (b : List Byte) :
    le b = ∑ i ∈ Finset.range b.length, (b.getD i 0).toNat * 2 ^ (8 * i) := by
  induction b with
  | nil => rfl
  | cons x xs ih =>
    rw [le_cons, ih, List.length_cons, Finset.sum_range_succ', Finset.mul_sum, Nat.add_comm]
    congr 1
    · refine Finset.sum_congr rfl fun i _ => ?_
      rw [List.getD_cons_succ, two_pow_eight_mul_succ, Nat.mul_left_comm]
    · simp

theorem getElem?_bytesOf {n i : Nat} (v : Nat) (hi : i < n) :
    (bytesOf n v)[i]? = some (BitVec.ofNat 8 (v / 2 ^ (8 * i))) := by
  induction n generalizing v i with
  | zero => exact absurd hi (Nat.not_lt_zero i)
  | succ n ih =>
    cases i with
    | zero => simp [bytesOf]
    | succ i =>
      rw [bytesOf, List.getElem?_cons_succ, ih _ (Nat.lt_of_succ_lt_succ hi),
        two_pow_eight_mul_succ, Nat.div_div_eq_div_mul]

theorem le_bytesOf {n v : Nat} (hv : v < 2 ^ (8 * n)) : le (bytesOf n v) = v := by
  induction n generalizing v with
  | zero => exact (Nat.lt_one_iff.mp hv).symm
  | succ n ih =>
    have hdiv : v / 256 < 2 ^ (8 * n) :=
      Nat.div_lt_of_lt_mul (two_pow_eight_mul_succ n ▸ hv)
    rw [bytesOf, le_cons, ih hdiv, BitVec.toNat_ofNat]
    exact Nat.mod_add_div v 256

theorem bytesOf_le (b : List Byte) : bytesOf b.length (le b) = b := by
  induction b with
  | nil => rfl
  | cons x xs ih =>
    have hhead : BitVec.ofNat 8 (x.toNat + 256 * le xs) = x := by
      apply BitVec.eq_of_toNat_eq
      rw [BitVec.toNat_ofNat]
      omega
    have htail : (x.toNat + 256 * le xs) / 256 = le xs := by
      have hx : x.toNat < 256 := x.isLt
      omega
    rw [List.length_cons, le_cons, bytesOf, hhead, htail, ih]

/-- Settles O21: the sum, the slices and the two round trips, each by induction along the bytes. -/
theorem littleEndianLaws : Obligations.LittleEndianLaws :=
  ⟨le_eq_sum, fun n v => ⟨length_bytesOf n v, fun _ => getElem?_bytesOf v⟩,
    fun _ _ => le_bytesOf, bytesOf_le⟩

end Sys2Proof
end

section
/-! The command header: its value as a word, and which headers the decoder rejects (spec/30_encoding.md R81, R82,
R86). -/

namespace Sys2Proof

/-- A well-formed command's immediate fits `imm32` (R82). -/
theorem immOf_lt {i : Instr} (hwf : i.wf = true) : immOf i < 2 ^ 32 := by
  cases i with
  | initM32 seed => exact seed.isLt
  | initM128x86 seed => exact seed.isLt
  | initM128x64 seed => exact seed.isLt
  | append payload => exact of_decide_eq_true hwf
  | finalize dlen => exact dlen.isLt
  | hsize => exact Nat.two_pow_pos 32

theorem headerWord_eq {i : Instr} (hwf : i.wf = true) :
    headerWord i = (opcodeOf i).toNat + 256 * immOf i := by
  have htake : (encode i).take Config.headerBytes = opcodeOf i :: bytesOf 4 (immOf i) := rfl
  rw [headerWord, htake, le_cons, le_bytesOf (immOf_lt hwf)]

/-- The byte below a little-endian tail is the residue modulo 256, the tail the quotient. -/
theorem mod_div_of_byte_add (b : Byte) (v : Nat) :
    (b.toNat + 256 * v) % 2 ^ 8 = b.toNat ∧ (b.toNat + 256 * v) / 2 ^ 8 = v := by
  have hb : b.toNat < 256 := b.isLt
  omega

/-- Settles O6: a header's value is its opcode plus 256 times the value of the bytes after it. -/
theorem headerFields : Obligations.HeaderFields := by
  refine ⟨fun b0 b1 b2 b3 b4 => ⟨le_lt [b0, b1, b2, b3, b4], ?_⟩, fun i hwf => ?_⟩
  · exact mod_div_of_byte_add b0 (le [b1, b2, b3, b4])
  · rw [headerWord_eq hwf]
    exact mod_div_of_byte_add _ _

theorem le_eq_zero_iff (b : List Byte) : le b = 0 ↔ ∀ x ∈ b, x = 0 := by
  induction b with
  | nil => simp
  | cons x xs ih =>
    have hx : x.toNat = 0 ↔ x = 0 := BitVec.toNat_inj (y := 0)
    rw [le_cons, List.forall_mem_cons, ← ih, ← hx]
    omega

/-- `imm32` is zero exactly when its four bytes are. -/
theorem imm32_eq_zero_iff (b1 b2 b3 b4 : Byte) :
    BitVec.ofNat 32 (le [b1, b2, b3, b4]) = 0 ↔ [b1, b2, b3, b4] = [0, 0, 0, 0] := by
  have hlt : le [b1, b2, b3, b4] < 2 ^ 32 := le_lt [b1, b2, b3, b4]
  have hzero : BitVec.ofNat 32 (le [b1, b2, b3, b4]) = 0 ↔ le [b1, b2, b3, b4] = 0 := by
    rw [← BitVec.toNat_inj, BitVec.toNat_ofNat, Nat.mod_eq_of_lt hlt]
    rfl
  rw [hzero, le_eq_zero_iff]
  simp

/-- The rejecting branches of the opcode table: the last one, and HSIZE's with a non-zero immediate (R83, R86). -/
theorem decodeHeader_eq_illegal_iff (op : Byte) (imm : W32) (hdr rest : List Byte) :
    decodeHeader op imm hdr rest = .illegal hdr rest ↔
      op ∉ ([0x10, 0x11, 0x12, 0x20, 0x30, 0x40] : List Byte) ∨ (op = 0x40 ∧ imm ≠ 0) := by
  unfold decodeHeader
  split_ifs <;> simp_all

theorem decode_eq_illegal_iff (b0 b1 b2 b3 b4 : Byte) (rest : List Byte) :
    decode (b0 :: b1 :: b2 :: b3 :: b4 :: rest) = .illegal [b0, b1, b2, b3, b4] rest ↔
      b0 ∉ ([0x10, 0x11, 0x12, 0x20, 0x30, 0x40] : List Byte) ∨
        (b0 = 0x40 ∧ [b1, b2, b3, b4] ≠ [0, 0, 0, 0]) := by
  rw [decode, decodeHeader_eq_illegal_iff, Ne, imm32_eq_zero_iff]

/-- An opcode and its immediate, written as a header, reach the opcode table as they are (R81, R82). -/
theorem decode_header {imm : Nat} (himm : imm < 2 ^ 32) (op : Byte) (rest : List Byte) :
    decode (op :: (bytesOf 4 imm ++ rest)) =
      decodeHeader op (BitVec.ofNat 32 imm) (op :: bytesOf 4 imm) rest := by
  have hle : le (bytesOf 4 imm) = imm := le_bytesOf himm
  exact congrArg (fun v => decodeHeader op (BitVec.ofNat 32 v) (op :: bytesOf 4 imm) rest) hle

/-- Every `dlen` is a legal encoding (R86 c). -/
theorem decode_encode_finalize (dlen : W32) :
    decode (encode (.finalize dlen)) = .command (.finalize dlen) [] := by
  calc decode (encode (.finalize dlen))
      = decodeHeader 0x30 (BitVec.ofNat 32 dlen.toNat) (0x30 :: bytesOf 4 dlen.toNat) [] :=
        decode_header dlen.isLt 0x30 []
    _ = .command (.finalize (BitVec.ofNat 32 dlen.toNat)) [] := rfl
    _ = .command (.finalize dlen) [] := by rw [BitVec.ofNat_toNat, BitVec.setWidth_eq]

end Sys2Proof
end

section
/-! What the engine answers to an illegal header and to a FINALIZE on a live instance (spec/60_exceptions.md R250 to
R252). -/

namespace Sys2Proof.Machine

variable {s : State}

theorem step_of_illegal {hdr rest : List Byte} (hf : s.Running)
    (hd : decode s.stream = .illegal hdr rest) :
    step s = .next (raiseFault (.illegalCommand hdr) (withStream rest s)) := by
  simp [step, hf, hd]

/-- On a live instance only FINALIZE's destination check is left. -/
theorem exec_finalize_of_live (hs : s.Live) (dlen : W32) :
    exec (.finalize dlen) s =
      whenDestLength dlen s (.next (resetInstance (respond (.digest (digestOf s)) s))) := by
  obtain ⟨hf, hv⟩ := hs
  rw [exec, execFinalize, whenRunning_of_running hf, whenInstance_of_valid hv]

/-- Settles O5: the decoder's rejecting branches, and FINALIZE's destination check where it fails. -/
theorem illegalEncodings : Obligations.IllegalEncodings := by
  refine ⟨fun b0 b1 b2 b3 b4 rest => ⟨decode_eq_illegal_iff b0 b1 b2 b3 b4 rest, ?_⟩, ?_⟩
  · intro s hf hstream hillegal
    exact step_of_illegal hf (hstream ▸ (decode_eq_illegal_iff b0 b1 b2 b3 b4 rest).mpr hillegal)
  · intro s dlen hs hdlen
    refine ⟨decode_encode_finalize dlen, ?_⟩
    rw [exec_finalize_of_live hs, whenDestLength, if_neg hdlen]
    rfl

end Sys2Proof.Machine
end

section
/-! The pseudo-commands (spec/30_encoding.md R89, spec/44_lifecycle.md R236, R237). -/

namespace Sys2Proof.Machine

theorem asciiBytes_eq_map {text : List Char} (h : ∀ c ∈ text, c.toNat < 128) :
    asciiBytes text = some (text.map fun c => BitVec.ofNat 8 c.toNat) := by
  induction text with
  | nil => rfl
  | cons c cs ih =>
    obtain ⟨hc, hcs⟩ := List.forall_mem_cons.mp h
    rw [asciiBytes, if_pos hc, ih hcs]
    rfl

/-- The live variant is the one the last INIT names, or the one before where there is none. -/
theorem liveAfter_eq_findSome_reverse (live : Option Variant) (is : List Instr) :
    liveAfter live is = (is.reverse.findSome? variantOfInit).or live := by
  induction is generalizing live with
  | nil => rfl
  | cons i is ih => simp [liveAfter, ih, List.findSome?_append, Option.or_assoc]

/-- Two lines with the same expansion are the same in front of any program. -/
theorem assembleFrom_cons_congr {native64 : Bool} {live : Option Variant} {l m : AsmLine}
    (h : expand native64 live l = expand native64 live m) (rest : List AsmLine) :
    assembleFrom native64 live (l :: rest) = assembleFrom native64 live (m :: rest) := by
  rw [assembleFrom, assembleFrom, h]

theorem finalizeOf_eq (v : Variant) : finalizeOf v = .finalize (if v = .v32 then 4 else 16) := by
  cases v <;> rfl

@[simp] theorem wf_initOf (v : Variant) (seed : W32) : (initOf v seed).wf = true := by
  cases v <;> rfl

@[simp] theorem variantOfInit_initOf (v : Variant) (seed : W32) :
    variantOfInit (initOf v seed) = some v := by
  cases v <;> rfl

/-- A FINALIZE.NEW after commands whose last INIT names `v` stands for `FINALIZE HS(v)` (R236). -/
theorem assembleFrom_finalizeNew {native64 : Bool} {before : List AsmLine} {is : List Instr}
    {v : Variant} (hbefore : assembleFrom native64 none before = some is)
    (hv : is.reverse.findSome? variantOfInit = some v) (after : List AsmLine) :
    assembleFrom native64 none (before ++ .finalizeNew :: after) =
      assembleFrom native64 none (before ++ .command (finalizeOf v) :: after) := by
  have hlive : liveAfter none is = some v := by
    rw [liveAfter_eq_findSome_reverse, hv, Option.some_or]
  have hline : expand native64 (liveAfter none is) .finalizeNew =
      expand native64 (liveAfter none is) (.command (finalizeOf v)) := by
    rw [hlive]
    rfl
  rw [assembleFrom_append, assembleFrom_append, hbefore, Option.bind_some, Option.bind_some,
    assembleFrom_cons_congr hline]

/-- INIT, APPEND, FINALIZE.NEW is the expansion of HASH (R89). -/
theorem assembleFrom_init_append_finalizeNew (native64 : Bool) (live : Option Variant) (v : Variant)
    (seed : W32) {bytes : List Byte} (hbytes : bytes.length < 2 ^ 32) :
    assembleFrom native64 live [.command (initOf v seed), .command (.append bytes), .finalizeNew] =
      some [initOf v seed, .append bytes, finalizeOf v] := by
  have hwf : (Instr.append bytes).wf = true := decide_eq_true hbytes
  have hinit : liveAfter live [initOf v seed] = some v := by
    rw [liveAfter, variantOfInit_initOf]
    rfl
  have happend : liveAfter (some v) [.append bytes] = some v := rfl
  have hfin : (finalizeOf v).wf = true := rfl
  simp [assembleFrom, expand, hwf, hinit, happend, hfin]

/-- On a live instance the FINALIZE of its own variant passes every check (R236). -/
theorem exec_finalizeOf_of_live {s : State} (hs : s.Live) :
    exec (finalizeOf s.variant) s =
      .next (resetInstance (respond (.digest (digestOf s)) s)) := by
  have hdlen : (BitVec.ofNat 32 (hashSize s.variant)).toNat = hashSize s.variant := by
    cases s.variant <;> rfl
  rw [finalizeOf, exec_finalize_of_live hs, whenDestLength, if_pos hdlen]

/-- Settles O59: the expansions as the assembler gives them, FINALIZE.NEW through the live variant before it. -/
theorem pseudoCommandExpansions : Obligations.PseudoCommandExpansions := by
  refine ⟨?appendS, ?finalizeNew, ?program, fun _ _ => ⟨rfl, rfl⟩, fun _ _ _ _ _ => rfl, ?live⟩
  case appendS =>
    intro native64 live text htext
    rw [expand, asciiBytes_eq_map htext]
    rfl
  case finalizeNew =>
    intro native64 before after is v hbefore hv
    rw [← finalizeOf_eq]
    exact assembleFrom_finalizeNew hbefore hv after
  case program =>
    intro native64 live v seed bytes hbytes
    rw [← finalizeOf_eq]
    exact assembleFrom_init_append_finalizeNew native64 live v seed hbytes
  case live =>
    intro s hs
    exact ⟨_, exec_finalizeOf_of_live hs, hs.1⟩

end Sys2Proof.Machine
end

section
/-! The partial word: the bytes present as a value, and what the missing ones count (spec/40_block_codec.md R117). -/

namespace Sys2Proof

/-- The bytes after the first `a.length` weigh that many positions more. -/
theorem le_append (a b : List Byte) : le (a ++ b) = le a + 2 ^ (8 * a.length) * le b := by
  induction a with
  | nil => simp
  | cons x xs ih =>
    rw [List.cons_append, le_cons, le_cons, ih, List.length_cons, two_pow_eight_mul_succ,
      Nat.mul_add, Nat.mul_assoc, Nat.add_assoc]

theorem le_append_replicate_zero (b : List Byte) (k : Nat) :
    le (b ++ List.replicate k 0) = le b := by
  have hzero : le (List.replicate k 0) = 0 :=
    (le_eq_zero_iff _).mpr fun _ hx => List.eq_of_mem_replicate hx
  rw [le_append, hzero, Nat.mul_zero, Nat.add_zero]

namespace Machine

/-- Bytes that fit the word are zero-extended: nothing of their value is cut off. -/
theorem toNat_readWord {w : Nat} {b : List Byte} (hfit : 8 * b.length ≤ w) :
    (readWord w b).toNat = le b := by
  have hlt : le b < 2 ^ w := (le_lt b).trans_le (Nat.pow_le_pow_right Nat.two_pos hfit)
  rw [readWord, BitVec.toNat_ofNat, Nat.mod_eq_of_lt hlt]

theorem readWord_append_replicate_zero (w : Nat) (b : List Byte) (k : Nat) :
    readWord w (b ++ List.replicate k 0) = readWord w b := by
  rw [readWord, readWord, le_append_replicate_zero]

theorem writeWord_readWord {w : Nat} {b : List Byte} (hfull : 8 * b.length = w) :
    writeWord (readWord w b) = b := by
  have hbytes : w / 8 = b.length := by omega
  rw [writeWord, toNat_readWord hfull.le, hbytes, bytesOf_le]

end Machine

/-- Settles O24: a word that holds all its bytes has their value, and zero bytes after them add nothing to it. -/
theorem partialWordZeroExtends : Obligations.PartialWordZeroExtends := fun w b hfit =>
  ⟨(Machine.toNat_readWord hfit).trans (le_eq_sum b),
    Machine.readWord_append_replicate_zero w b, Machine.writeWord_readWord⟩

end Sys2Proof
end

section
/-! The mixer's lines written out, and the order in which they read each other's words (spec/41_mixer.md R131, R139). -/

namespace Sys2Proof.Machine

/-- Both halves of a line: scramble, fold, rotate, add the next word, multiply by 5 and add (R131). -/
theorem returnLine_foldLine {w : Nat} (l : Line w) (h k next : BitVec w) :
    returnLine l (foldLine l h k) next =
      (rotl (h ^^^ (rotl (k * l.ca) l.rk * l.cb)) l.rh + next) * 5 + l.n := by
  rw [returnLine, foldLine, kscr]

/-- The one line of `V32` has no next word: it is a line that adds 0. -/
theorem mixV32_eq_returnLine (h k : W32) :
    mixV32 h k = returnLine lineV32 (foldLine lineV32 h k) 0 := by
  rw [mixV32, returnLine, add_zero]

/-- Line 1 reads the old `h2`, line 2 the `h1` that line 1 has written (R139). -/
theorem mixV128x64_eq_of_line1 {h1 h2 k1 h1' : W64} (k2 : W64)
    (hline1 : returnLine lineX64w1 (foldLine lineX64w1 h1 k1) h2 = h1') :
    mixV128x64 ⟨h1, h2⟩ ⟨k1, k2⟩ = ⟨h1', returnLine lineX64w2 (foldLine lineX64w2 h2 k2) h1'⟩ := by
  rw [mixV128x64, hline1]

/-- Lines 1 to 3 read the old next word, line 4 the `h1` that line 1 has written (R139). -/
theorem mixV128x86_eq_of_line1 {h1 h2 k1 h1' : W32} (h3 h4 k2 k3 k4 : W32)
    (hline1 : returnLine lineX86w1 (foldLine lineX86w1 h1 k1) h2 = h1') :
    mixV128x86 ⟨h1, h2, h3, h4⟩ ⟨k1, k2, k3, k4⟩ =
      ⟨h1',
        returnLine lineX86w2 (foldLine lineX86w2 h2 k2) h3,
        returnLine lineX86w3 (foldLine lineX86w3 h3 k3) h4,
        returnLine lineX86w4 (foldLine lineX86w4 h4 k4) h1'⟩ := by
  rw [mixV128x86, hline1]

/-- Settles O28: the line without a next word, at the constants of R132. -/
theorem mixV32Line : Obligations.MixV32Line := by
  refine ⟨fun h1 k1 => ?line, by decide, by decide, by decide⟩
  case line =>
    rw [mixV32_eq_returnLine, returnLine_foldLine, add_zero, lineV32]

/-- Settles O29: the two lines at the constants of R134, line 2 on what line 1 wrote. -/
theorem mixV128x64Lines : Obligations.MixV128x64Lines := by
  refine ⟨fun h1 h2 k1 k2 h1' hh1' => ?lines, by decide, by decide, by decide, by decide⟩
  case lines =>
    have hline1 : returnLine lineX64w1 (foldLine lineX64w1 h1 k1) h2 = h1' := by
      rw [returnLine_foldLine, hh1', lineX64w1]
    rw [mixV128x64_eq_of_line1 k2 hline1, returnLine_foldLine, lineX64w2]

/-- Settles O30: the four lines at the constants of R137, line 4 on what line 1 wrote. -/
theorem mixV128x86Lines : Obligations.MixV128x86Lines := by
  refine ⟨fun h1 h2 h3 h4 k1 k2 k3 k4 h1' hh1' => ?lines, by decide, by decide, by decide, by decide⟩
  case lines =>
    have hline1 : returnLine lineX86w1 (foldLine lineX86w1 h1 k1) h2 = h1' := by
      rw [returnLine_foldLine, hh1', lineX86w1]
    rw [mixV128x86_eq_of_line1 h3 h4 k2 k3 k4 hline1, returnLine_foldLine, returnLine_foldLine,
      returnLine_foldLine, lineX86w2, lineX86w3, lineX86w4]

end Sys2Proof.Machine
end

section
/-! What a sequence of blocks does to the hash words and to the carry: `mixMessage` and `messageTail` (R169) on a short
sequence, on a block put in front, and on a sequence continued after its full blocks. -/

namespace Sys2Proof.Machine

variable {bs : Nat}

/-- Every byte sequence is a number of full blocks put in front of fewer bytes than a block. -/
theorem blockInduction (hbs : 0 < bs) {motive : List Byte → Prop}
    (short : ∀ z, z.length < bs → motive z)
    (block : ∀ b z, b.length = bs → motive z → motive (b ++ z)) (z : List Byte) : motive z := by
  by_cases hz : z.length < bs
  · exact short z hz
  · have hblock : (z.take bs).length = bs := by rw [List.length_take]; omega
    have hrest : motive (z.drop bs) := blockInduction hbs short block (z.drop bs)
    exact List.take_append_drop bs z ▸ block _ _ hblock hrest
termination_by z.length
decreasing_by rw [List.length_drop]; omega

theorem blockAt_succ (bs : Nat) (z : List Byte) (i : Nat) :
    blockAt bs z (i + 1) = blockAt bs (z.drop bs) i := by
  simp only [blockAt, memRead, List.drop_drop]
  congr 2
  ring

/-- Step 2 of APPEND as a fold over the block numbers (R164, R169). -/
theorem mixBlocks_eq_foldl (bs q : Nat) (h : WordTuple) (z : List Byte) :
    mixBlocks bs q h z = (List.range q).foldl (fun h i => mixBlock h (blockAt bs z i)) h := by
  induction q generalizing h z with
  | zero => rfl
  | succ q ih =>
    have hfirst : blockAt bs z 0 = memRead z 0 bs := by rw [blockAt, Nat.zero_mul]
    rw [mixBlocks, ih, List.range_succ_eq_map, List.foldl_cons, List.foldl_map, hfirst]
    simp only [blockAt_succ]

theorem mixMessage_eq_mixBlocks (bs : Nat) (h : WordTuple) (z : List Byte) :
    mixMessage bs h z = mixBlocks bs (z.length / bs) h z :=
  (mixBlocks_eq_foldl bs _ h z).symm

theorem mixMessage_of_short {z : List Byte} (hz : z.length < bs) (h : WordTuple) :
    mixMessage bs h z = h := by
  rw [mixMessage_eq_mixBlocks, Nat.div_eq_of_lt hz, mixBlocks]

theorem messageTail_of_short {z : List Byte} (hz : z.length < bs) : messageTail bs z = z := by
  rw [messageTail, Nat.div_eq_of_lt hz, Nat.zero_mul, List.drop_zero]

/-- A block in front adds one to the number of full blocks. -/
theorem length_block_append_div (hbs : 0 < bs) {b : List Byte} (hb : b.length = bs) (z : List Byte) :
    (b ++ z).length / bs = z.length / bs + 1 := by
  rw [List.length_append, hb, Nat.add_div_left _ hbs]

theorem mixMessage_block_append (hbs : 0 < bs) {b : List Byte} (hb : b.length = bs) (h : WordTuple)
    (z : List Byte) : mixMessage bs h (b ++ z) = mixMessage bs (mixBlock h b) z := by
  rw [mixMessage_eq_mixBlocks, mixMessage_eq_mixBlocks, length_block_append_div hbs hb, mixBlocks,
    memRead_zero, List.take_left' hb, List.drop_left' hb]

theorem messageTail_block_append (hbs : 0 < bs) {b : List Byte} (hb : b.length = bs) (z : List Byte) :
    messageTail bs (b ++ z) = messageTail bs z := by
  rw [messageTail, length_block_append_div hbs hb, Nat.succ_mul, Nat.add_comm, ← List.drop_drop,
    List.drop_left' hb, messageTail]

/-- Mixing the full blocks of a sequence may stop anywhere and go on from what is left (R170). -/
theorem mixMessage_append (hbs : 0 < bs) (h : WordTuple) (y z : List Byte) :
    mixMessage bs h (y ++ z) = mixMessage bs (mixMessage bs h y) (messageTail bs y ++ z) := by
  induction y using blockInduction hbs generalizing h with
  | short y hy => rw [mixMessage_of_short hy, messageTail_of_short hy]
  | block b y hb ih =>
    rw [List.append_assoc, mixMessage_block_append hbs hb, mixMessage_block_append hbs hb,
      messageTail_block_append hbs hb, ih]

theorem messageTail_append (hbs : 0 < bs) (y z : List Byte) :
    messageTail bs (y ++ z) = messageTail bs (messageTail bs y ++ z) := by
  induction y using blockInduction hbs with
  | short y hy => rw [messageTail_of_short hy]
  | block b y hb ih =>
    rw [List.append_assoc, messageTail_block_append hbs hb, messageTail_block_append hbs hb, ih]

theorem length_messageTail (bs : Nat) (z : List Byte) :
    (messageTail bs z).length = z.length % bs := by
  rw [messageTail, List.length_drop, Nat.div_mul_self_eq_mod_sub_self,
    Nat.sub_sub_self (Nat.mod_le _ _)]

theorem length_messageTail_lt (hbs : 0 < bs) (z : List Byte) : (messageTail bs z).length < bs :=
  length_messageTail bs z ▸ Nat.mod_lt _ hbs

/-- The full blocks of a sequence, taken alone. -/
theorem length_take_full (bs : Nat) (z : List Byte) :
    (z.take (z.length / bs * bs)).length = z.length / bs * bs :=
  List.length_take_of_le (Nat.div_mul_le_self _ _)

/-- The bytes before the tail are all that is mixed. -/
theorem mixMessage_take_full (hbs : 0 < bs) (h : WordTuple) (z : List Byte) :
    mixMessage bs h (z.take (z.length / bs * bs)) = mixMessage bs h z := by
  have hnil : messageTail bs (z.take (z.length / bs * bs)) = [] := by
    rw [← List.length_eq_zero_iff, length_messageTail, length_take_full, Nat.mul_mod_left]
  calc mixMessage bs h (z.take (z.length / bs * bs))
      = mixMessage bs (mixMessage bs h (z.take (z.length / bs * bs))) (messageTail bs z) :=
        (mixMessage_of_short (length_messageTail_lt hbs z) _).symm
    _ = mixMessage bs h (z.take (z.length / bs * bs) ++ messageTail bs z) := by
        rw [mixMessage_append hbs h (z.take _), hnil, List.nil_append]
    _ = mixMessage bs h z := by rw [messageTail, List.take_append_drop]

end Sys2Proof.Machine
end

section
/-! APPEND as a whole: its closed form (R169), two chunks as one (R170), and what a list of chunks leaves. -/

namespace Sys2Proof.Machine

variable {s : State} {bs : Nat}

theorem memRead_drop (src : List Byte) (pos addr n : Nat) :
    memRead (src.drop pos) addr n = memRead src (pos + addr) n := by
  rw [memRead, memRead, List.drop_drop]

/-- Step 3 keeps the bytes after the last full block (R165). -/
theorem memRead_remainder (bs : Nat) (z : List Byte) :
    memRead z (z.length / bs * bs) (z.length % bs) = messageTail bs z :=
  List.take_of_length_le (length_messageTail bs z).le

/-- Step 2 mixes every full block of what step 1 left (R164). -/
theorem mixBlocks_full (hbs : 0 < bs) (h : WordTuple) (z : List Byte) :
    mixBlocks bs (z.length / bs) h (memRead z 0 (z.length / bs * bs)) = mixMessage bs h z := by
  rw [← mixMessage_take_full hbs, mixMessage_eq_mixBlocks, length_take_full,
    Nat.mul_div_cancel _ hbs, memRead_zero]

/-- Steps 2 to 4 in terms of what step 1 left: `src.drop pos` is the part of the chunk not yet consumed. -/
theorem appendChunk_of_fillCarry {src : List Byte} {w : AppendWork}
    (hw : fillCarry (blockSize s.variant) s.h s.carry src = w) :
    appendChunk src s = { s with
      h := mixMessage (blockSize s.variant) w.h (src.drop w.pos)
      totalLength := s.totalLength + BitVec.ofNat 64 src.length
      carry := keepRemainder w.carry (messageTail (blockSize s.variant) (src.drop w.pos)) } := by
  have hbs := blockSize_pos s.variant
  have hfull : memRead src w.pos = memRead (src.drop w.pos) 0 :=
    funext fun n => (memRead_drop src w.pos 0 n).symm
  rw [← mixBlocks_full hbs, ← memRead_remainder]
  simp only [appendChunk, hw, ← List.length_drop, ← Nat.div_mul_self_eq_mod_sub_self,
    Nat.mul_div_cancel _ hbs, ← memRead_drop, hfull]

@[simp] theorem keepRemainder_nil_left (remainder : List Byte) :
    keepRemainder [] remainder = remainder := by
  rw [keepRemainder_eq]
  split
  · exact Eq.symm ‹_›
  · rfl

@[simp] theorem keepRemainder_nil_right (carry : List Byte) : keepRemainder carry [] = carry := by
  rw [keepRemainder_eq, if_pos rfl]

/-- The closed form of APPEND: it mixes the full blocks of `CARRY ‖ SRC` and keeps the rest (R169). -/
theorem appendChunk_eq (hc : s.carry.length < blockSize s.variant) (src : List Byte) :
    appendChunk src s = { s with
      h := mixMessage (blockSize s.variant) s.h (s.carry ++ src)
      totalLength := s.totalLength + BitVec.ofNat 64 src.length
      carry := messageTail (blockSize s.variant) (s.carry ++ src) } := by
  have hbs := blockSize_pos s.variant
  obtain ⟨hnil, hw⟩ | ⟨-, hlt, hw⟩ | ⟨-, hle, hw⟩ := fillCarry_cases _ s.h s.carry src hc
  case inl =>
    rw [appendChunk_of_fillCarry hw, hnil, keepRemainder_nil_left, List.drop_zero, List.nil_append]
  case inr.inl =>
    have hshort : (s.carry ++ src).length < blockSize s.variant := by
      rw [List.length_append]; omega
    rw [appendChunk_of_fillCarry hw, List.drop_length, mixMessage_of_short hbs,
      messageTail_of_short hbs, keepRemainder_nil_right, mixMessage_of_short hshort,
      messageTail_of_short hshort]
  case inr.inr =>
    have hblock : (s.carry ++ src.take (blockSize s.variant - s.carry.length)).length =
        blockSize s.variant := by
      rw [List.length_append, List.length_take_of_le hle]; omega
    have hsplit : s.carry ++ src = (s.carry ++ src.take (blockSize s.variant - s.carry.length)) ++
        src.drop (blockSize s.variant - s.carry.length) := by
      rw [List.append_assoc, List.take_append_drop]
    rw [appendChunk_of_fillCarry hw, keepRemainder_nil_left, hsplit,
      mixMessage_block_append hbs hblock, messageTail_block_append hbs hblock]

/-- The empty chunk changes nothing (R171). -/
theorem appendChunk_nil (hc : s.carry.length < blockSize s.variant) : appendChunk [] s = s := by
  rw [appendChunk_eq hc, List.append_nil, mixMessage_of_short hc, messageTail_of_short hc]
  simp

theorem length_appendChunk_carry_lt (hc : s.carry.length < blockSize s.variant) (src : List Byte) :
    (appendChunk src s).carry.length < blockSize (appendChunk src s).variant :=
  (carryWf_iff _ _).mp (appendChunk_carryWf src s ((carryWf_iff _ _).mpr hc))

/-- Two chunks in a row are as one (R170). -/
theorem appendChunk_append (hc : s.carry.length < blockSize s.variant) (a b : List Byte) :
    appendChunk b (appendChunk a s) = appendChunk (a ++ b) s := by
  have hbs := blockSize_pos s.variant
  rw [appendChunk_eq (length_appendChunk_carry_lt hc a), appendChunk_eq hc a,
    appendChunk_eq hc (a ++ b)]
  simp only [← mixMessage_append hbs, ← messageTail_append hbs, List.append_assoc,
    List.length_append, BitVec.ofNat_add, BitVec.add_assoc]

/-- With an instance and no fault latched APPEND always succeeds (R161). -/
theorem exec_append_of_live (hs : s.Live) (payload : List Byte) :
    exec (.append payload) s = .next (appendChunk payload s) := by
  obtain ⟨hf, hv⟩ := hs
  rw [exec, execAppend, whenRunning_of_running hf, whenInstance_of_valid hv]

/-- Without an instance APPEND raises `NoInstance` (R161). -/
theorem exec_append_of_invalid (hf : s.Running) (hv : s.valid = false) (payload : List Byte) :
    exec (.append payload) s = .next (raiseFault (.noInstance 0x20) s) := by
  rw [exec, execAppend, whenRunning_of_running hf, whenInstance_of_invalid hv]

/-- A list of chunks leaves what one chunk with all their bytes leaves. -/
theorem execAll_map_append (hs : s.Live) (hc : s.carry.length < blockSize s.variant)
    (cs : List (List Byte)) :
    execAll (cs.map Instr.append) s = .next (appendChunk cs.flatten s) := by
  induction cs generalizing s with
  | nil => rw [List.map_nil, List.flatten_nil, appendChunk_nil hc, execAll]
  | cons c cs ih =>
    have hs' : (appendChunk c s).Live := hs
    have hc' := length_appendChunk_carry_lt hc c
    simp only [List.map_cons, execAll, exec_append_of_live hs]
    rw [ih hs' hc', appendChunk_append hc, List.flatten_cons]

/-- Settles O44: whatever the chunking, the run ends where one APPEND of all the bytes ends. -/
theorem streamingEquivalence : Obligations.StreamingEquivalence := by
  intro s hs hc
  refine ⟨fun a b => ⟨appendChunk (a ++ b) s, ?two, exec_append_of_live hs _⟩,
    fun cs ds hflat => ⟨appendChunk cs.flatten s, execAll_map_append hs hc cs, ?others⟩⟩
  case two => simpa using execAll_map_append hs hc [a, b]
  case others => rw [hflat, execAll_map_append hs hc ds]

/-- Settles O40: APPEND's two checks in their order, then success. -/
theorem appendPreconditions : Obligations.AppendPreconditions := by
  refine fun payload s => ⟨fun hf t => ?faulted, fun hf hv => ?noInstance, fun hf hv => ?succeeds⟩
  case faulted =>
    rw [(exec_fault_iff (.append payload) s .latched).mpr hf]
    simp
  case noInstance =>
    exact exec_append_of_invalid hf hv payload
  case succeeds =>
    exact ⟨_, exec_append_of_live ⟨hf, hv⟩ payload, hf, rfl⟩

end Sys2Proof.Machine
end

section
/-! FINALIZE's operations written out: the bytes of the digest (spec/43_finalize.md R207), the avalanches (R197, R198),
the tail fold (R191 to R194), cross-propagation and step 2 (R201 to R205). -/

namespace Sys2Proof.Machine

@[simp] theorem length_writeWord {w : Nat} (x : BitVec w) : (writeWord x).length = w / 8 :=
  length_bytesOf _ _

/-- The digest has the length its shape's variant asks for (R207, R240). -/
theorem length_wrwords (x : WordTuple) : (wrwords x).length = hashSize (shapeOf x) := by
  cases x with
  | v32 w => exact length_writeWord w
  | v128x86 q => simp [wrwords, wrwordsV128x86, hashSize, shapeOf]
  | v128x64 p => simp [wrwords, wrwordsV128x64, hashSize, shapeOf]

/-- Settles O25: a word of `W` bits is written as its `W/8` bytes, and their lengths add up to `HS`. -/
theorem digestSerialisation : Obligations.DigestSerialisation :=
  ⟨fun _ => rfl, fun _ => rfl, fun _ => rfl, length_wrwords⟩

/-- Settles O33: each named value is what the operation before it gives. -/
theorem avalancheFormulas : Obligations.AvalancheFormulas := by
  refine ⟨fun h a b c d ha hb hc hd => ?fmix32, fun k a b c d ha hb hc hd => ?fmix64,
    by decide, by decide, by decide, by decide, by decide, by decide, by decide, by decide⟩
  case fmix32 =>
    subst ha hb hc hd
    rfl
  case fmix64 =>
    subst ha hb hc hd
    rfl

/-- The bytes of the tail that fall into sub-word `j`: as many of `W/8` as the tail has from there on. -/
theorem memRead_min (t : List Byte) (lo n : Nat) :
    memRead t lo (min (t.length - lo) n) = (t.drop lo).take n := by
  rw [memRead, ← List.length_drop, Nat.min_comm, ← List.take_take, List.take_length]

/-- The fold of sub-word `j`, which begins at byte `lo` and has `n` bytes (R191). -/
theorem foldTail_eq {w lo n j : Nat} (hn : w / 8 = n) (hlo : (j - 1) * n = lo) (l : Line w)
    (t : List Byte) (h : BitVec w) :
    foldTail l t j h =
      if t.length ≥ lo + 1 then
        h ^^^ (rotl (readWord w ((t.drop lo).take n) * l.ca) l.rk * l.cb)
      else h := by
  subst hn hlo
  rw [← memRead_min]
  rfl

/-- The last sub-word takes all that is left of a tail shorter than a block. -/
theorem take_drop_of_length_le {t : List Byte} {lo n : Nat} (ht : t.length ≤ lo + n) :
    (t.drop lo).take n = t.drop lo :=
  List.take_of_length_le (by rw [List.length_drop]; omega)

/-- Settles O36: sub-word `j` begins at byte `(j-1) * W/8`, and the last one takes the rest of the tail. -/
theorem tailFoldByLength : Obligations.TailFoldByLength := by
  refine ⟨fun h t ht => ?v32, fun h t ht => ?v128x64, fun h t ht => ?v128x86,
    by decide, by decide, by decide⟩
  case v32 =>
    have hlast : (t.drop 0).take 4 = t.drop 0 := take_drop_of_length_le (by omega)
    rw [tailFoldV32, foldTail_eq (lo := 0) (n := 4) rfl rfl, hlast]
    rfl
  case v128x64 =>
    have hlast : (t.drop 8).take 8 = t.drop 8 := take_drop_of_length_le (by omega)
    rw [tailFoldV128x64, foldTail_eq (lo := 0) (n := 8) rfl rfl,
      foldTail_eq (lo := 8) (n := 8) rfl rfl, hlast]
    rfl
  case v128x86 =>
    have hlast : (t.drop 12).take 4 = t.drop 12 := take_drop_of_length_le (by omega)
    rw [tailFoldV128x86, foldTail_eq (lo := 0) (n := 4) rfl rfl,
      foldTail_eq (lo := 4) (n := 4) rfl rfl, foldTail_eq (lo := 8) (n := 4) rfl rfl,
      foldTail_eq (lo := 12) (n := 4) rfl rfl, hlast]
    rfl

/-- Settles O38: step 2 by its definition, with `trunc_W` of the count read as its value modulo `2 ^ W`. -/
theorem finalizationMixFormulas : Obligations.FinalizationMixFormulas := by
  refine ⟨fun h1 h2 h3 h4 s hs => ?propX86, fun _ _ => rfl, fun h t => ?v32,
    fun h p t l hl hp => ?v128x86, fun h p t hp => ?v128x64,
    by decide, by decide, by decide, by decide, by decide, by decide, by decide, by decide,
    by decide, by decide, by decide, by decide⟩
  case propX86 => rw [propV128x86, hs]
  case v32 => rw [finMixV32, BitVec.ofNat_toNat]
  case v128x86 => rw [finMixV128x86, hp, hl, BitVec.ofNat_toNat]
  case v128x64 => rw [finMixV128x64, hp, BitVec.setWidth_eq]

end Sys2Proof.Machine
end

section
/-! No command reads the response log (spec/30_encoding.md R92): what it answers on a state whose log has records in
front is what it answers without them, the records put back. So states that differ in the log only run alike, as the
states after FINALIZE and after INIT do (spec/43_finalize.md R211). -/

namespace Sys2Proof.Machine

/-- A result with its next state, if it is one, changed. -/
def mapNext (f : State → State) : Result → Result
  | .next s => .next (f s)
  | .fault r => .fault r
  | .refused r => .refused r

/-- The state with some records in front of its log. -/
def underLog (before : List Response) (s : State) : State :=
  { s with log := before ++ s.log }

/-- The state with an empty log. -/
def clearLog (s : State) : State :=
  { s with log := [] }

variable {s t : State} (before : List Response)

@[simp] theorem mapNext_next (f : State → State) (s : State) : mapNext f (.next s) = .next (f s) := rfl

theorem mapNext_eq_next {f : State → State} {r : Result} (h : mapNext f r = .next t) :
    ∃ w, r = .next w ∧ f w = t := by
  cases r with
  | next w => exact ⟨w, rfl, Host.Outcome.next.inj h⟩
  | fault r => cases h
  | refused r => cases h

theorem underLog_clearLog (s : State) : underLog s.log (clearLog s) = s := by
  simp [underLog, clearLog]

/-- No element of the instance is in the log (R37). -/
theorem sameInstance_underLog (p q : List Response) (s : State) :
    (underLog p s).SameInstance (underLog q s) :=
  ⟨rfl, rfl, fun _ => rfl, rfl, rfl, rfl, rfl, rfl⟩

@[simp] theorem underLog_variant (s : State) : (underLog before s).variant = s.variant := rfl

/-! Records in front of the log commute with every update and with every check. -/

@[simp] theorem respond_underLog (r : Response) (s : State) :
    respond r (underLog before s) = underLog before (respond r s) := by
  simp [respond, underLog]

@[simp] theorem raiseFault_underLog (r : FaultRecord) (s : State) :
    raiseFault r (underLog before s) = underLog before (raiseFault r s) := by
  simp [raiseFault, respond, underLog]

@[simp] theorem createInstance_underLog (v : Variant) (seed : W32) (s : State) :
    createInstance v seed (underLog before s) = underLog before (createInstance v seed s) := rfl

@[simp] theorem resetInstance_underLog (s : State) :
    resetInstance (underLog before s) = underLog before (resetInstance s) := rfl

@[simp] theorem appendChunk_underLog (src : List Byte) (s : State) :
    appendChunk src (underLog before s) = underLog before (appendChunk src s) := rfl

@[simp] theorem digestOf_underLog (s : State) : digestOf (underLog before s) = digestOf s := rfl

@[simp] theorem mapNext_whenRunning (s : State) (k : Result) :
    mapNext (underLog before) (whenRunning s k) =
      whenRunning (underLog before s) (mapNext (underLog before) k) :=
  apply_ite (mapNext (underLog before)) _ _ _

@[simp] theorem mapNext_whenInstance (op : Byte) (s : State) (k : Result) :
    mapNext (underLog before) (whenInstance op s k) =
      whenInstance op (underLog before s) (mapNext (underLog before) k) := by
  rw [whenInstance, apply_ite (mapNext (underLog before)), mapNext_next, ← raiseFault_underLog]
  rfl

@[simp] theorem mapNext_whenDestLength (dlen : W32) (s : State) (k : Result) :
    mapNext (underLog before) (whenDestLength dlen s k) =
      whenDestLength dlen (underLog before s) (mapNext (underLog before) k) := by
  rw [whenDestLength, apply_ite (mapNext (underLog before)), mapNext_next, ← raiseFault_underLog]
  rfl

/-- A command leaves the records already in the log where they are and answers as without them. -/
theorem exec_underLog (i : Instr) (s : State) :
    exec i (underLog before s) = mapNext (underLog before) (exec i s) := by
  cases i with
  | initM32 seed => simp [exec, execInitM32]
  | initM128x86 seed => simp [exec, execInitM128x86]
  | initM128x64 seed => simp [exec, execInitM128x64]
  | append payload => simp [exec, execAppend]
  | finalize dlen => simp [exec, execFinalize]
  | hsize => simp [exec, execHsize]

theorem execAll_underLog (is : List Instr) (s : State) :
    execAll is (underLog before s) = mapNext (underLog before) (execAll is s) := by
  induction is generalizing s with
  | nil => rfl
  | cons i is ih =>
    rw [execAll, execAll, exec_underLog]
    cases exec i s with
    | next w => exact ih w
    | fault r => rfl
    | refused r => rfl

theorem sameInstance_of_clearLog_eq (hst : clearLog s = clearLog t) : s.SameInstance t := by
  rw [← underLog_clearLog s, ← underLog_clearLog t, hst]
  exact sameInstance_underLog _ _ _

/-- States that differ in the log only run alike: equal instances after, and the same new records. -/
theorem execAll_of_clearLog_eq (hst : clearLog s = clearLog t) {is : List Instr} {s' : State}
    (h : execAll is s = .next s') :
    ∃ t' l, execAll is t = .next t' ∧
      s'.SameInstance t' ∧ s'.log = s.log ++ l ∧ t'.log = t.log ++ l := by
  rw [← underLog_clearLog s, execAll_underLog, hst] at h
  obtain ⟨w, hw, rfl⟩ := mapNext_eq_next h
  have ht : execAll is t = .next (underLog t.log w) := by
    rw [← underLog_clearLog t, execAll_underLog, hw, underLog_clearLog, mapNext_next]
  exact ⟨underLog t.log w, w.log, ht, sameInstance_underLog _ _ w, rfl, rfl⟩

theorem exec_initOf_of_running (hs : s.Running) (v : Variant) (seed : W32) :
    exec (initOf v seed) s = .next (createInstance v seed s) := by
  cases v <;> exact whenRunning_of_running hs

/-- The instance reset creates the instance again (R209, R233). -/
theorem resetInstance_eq_createInstance (hv : s.valid = true) :
    resetInstance s = createInstance s.variant s.seed s := by
  rw [resetInstance, createInstance, ← hv]

/-- Settles O48: after FINALIZE and after INIT the states differ in the log only, by the digest, and no command reads
the log. -/
theorem finalizeThenLikeInit : Obligations.FinalizeThenLikeInit := by
  intro s hs
  obtain ⟨hf, hv⟩ := hs
  have hlogOnly : clearLog (resetInstance (respond (.digest (digestOf s)) s)) =
      clearLog (createInstance s.variant s.seed s) := by
    rw [← resetInstance_eq_createInstance hv]
    rfl
  refine ⟨_, _, exec_finalizeOf_of_live ⟨hf, hv⟩, exec_initOf_of_running hf _ _,
    sameInstance_of_clearLog_eq hlogOnly,
    fun is => ⟨fun t' ht' => execAll_of_clearLog_eq hlogOnly ht', fun u' hu' => ?_⟩⟩
  obtain ⟨t', -, ht', -⟩ := execAll_of_clearLog_eq hlogOnly.symm hu'
  exact ⟨t', ht'⟩

end Sys2Proof.Machine
end

section
/-! The life of an instance: what INIT creates, what HSIZE reports about it, and the constants of its variant
(spec/44_lifecycle.md R230 to R234, R240). -/

namespace Sys2Proof.Machine

variable {s t : State}

/-- No command has a step while a fault is latched (R254). -/
theorem exec_ne_next_of_fault (hf : s.fault = true) (i : Instr) : exec i s ≠ .next t := by
  rw [(exec_fault_iff i s .latched).mpr hf]
  simp

/-- An INIT is its opcode and the seed's four bytes; it has no payload (R81, R83). -/
theorem encode_initOf (v : Variant) (seed : W32) :
    encode (initOf v seed) = opcodeOf (initOf v seed) :: bytesOf 4 seed.toNat := by
  cases v <;> exact congrArg (_ :: ·) (List.append_nil _)

/-- Settles O11: INIT.M32 is `INIT(V32, seed)` (R233), and the one initial word of `V32` is the seed. -/
theorem initM32Creates : Obligations.InitM32Creates := by
  intro seed s
  exact ⟨encode_initOf .v32 seed, fun hf => exec_initOf_of_running hf .v32 seed,
    fun hf _ => exec_ne_next_of_fault hf _⟩

theorem exec_hsize_of_live (hs : s.Live) :
    exec .hsize s = .next (respond (.size (BitVec.ofNat 8 (hashSize s.variant))) s) := by
  obtain ⟨hf, hv⟩ := hs
  rw [exec, execHsize, whenRunning_of_running hf, whenInstance_of_valid hv]

theorem exec_hsize_of_invalid (hf : s.Running) (hv : s.valid = false) :
    exec .hsize s = .next (raiseFault (.noInstance 0x40) s) := by
  rw [exec, execHsize, whenRunning_of_running hf, whenInstance_of_invalid hv]

/-- The byte HSIZE reports (R234). -/
theorem ofNat_hashSize (v : Variant) :
    BitVec.ofNat 8 (hashSize v) = if v = .v32 then 4 else 16 := by
  cases v <;> rfl

/-- Settles O14: a non-zero `imm32` is rejected by the decoder, a missing instance by HSIZE's one check, and what is
reported is `HS` of the variant. -/
theorem hsizeReports : Obligations.HsizeReports := by
  refine ⟨rfl, fun s hf => ⟨fun b1 b2 b3 b4 rest hstream himm => ?illegal, fun hv => ?noInstance,
    fun hv => ?reports⟩⟩
  case illegal =>
    have hdecode : decode s.stream = .illegal [0x40, b1, b2, b3, b4] rest := by
      rw [hstream]
      exact (decode_eq_illegal_iff 0x40 b1 b2 b3 b4 rest).mpr (.inr ⟨rfl, himm⟩)
    exact step_of_illegal hf hdecode
  case noInstance => exact exec_hsize_of_invalid hf hv
  case reports =>
    rw [exec_hsize_of_live ⟨hf, hv⟩, ofNat_hashSize]
    rfl

theorem hashSize_eq_blockSize (v : Variant) : hashSize v = blockSize v := by
  cases v <;> rfl

/-- A block is `NW` words of `W` bits (R6). -/
theorem eight_mul_blockSize (v : Variant) : 8 * blockSize v = numWords v * wordBits v := by
  cases v <;> rfl

/-- The low two bits of an INIT opcode are its variant's code (R21, R83). -/
theorem setWidth_opcodeOf_initOf (v : Variant) (seed : W32) :
    (opcodeOf (initOf v seed)).setWidth 2 = variantCode v := by
  cases v <;> simp [initOf, opcodeOf, variantCode]

/-- Settles O27: each table read off variant by variant. -/
theorem variantConstants : Obligations.VariantConstants :=
  ⟨rfl, rfl, rfl, fun v => ⟨hashSize_eq_blockSize v, eight_mul_blockSize v⟩,
    setWidth_opcodeOf_initOf⟩

end Sys2Proof.Machine
end

section
/-! The faults: which check raises each, what a raising command or step leaves, and how much one command can log
(spec/60_exceptions.md R250 to R255). -/

namespace Sys2Proof.Machine

variable {s t : State} {i : Instr}

theorem step_of_fault (hf : s.fault = true) : step s = .fault .latched := by
  simp [step, hf]

theorem step_of_command {rest : List Byte} (hf : s.Running) (hd : decode s.stream = .command i rest) :
    step s = exec i (withStream rest s) := by
  simp [step, hf, hd]

theorem exec_finalize_of_invalid (hf : s.Running) (hv : s.valid = false) (dlen : W32) :
    exec (.finalize dlen) s = .next (raiseFault (.noInstance 0x30) s) := by
  rw [exec, execFinalize, whenRunning_of_running hf, whenInstance_of_invalid hv]

/-- Without an instance each command that needs one raises `NoInstance` with its own opcode (R250). -/
theorem exec_of_invalid (hf : s.Running) (hv : s.valid = false)
    (hop : opcodeOf i = 0x20 ∨ opcodeOf i = 0x30 ∨ opcodeOf i = 0x40) :
    exec i s = .next (raiseFault (.noInstance (opcodeOf i)) s) := by
  cases i with
  | initM32 seed => simp [opcodeOf] at hop
  | initM128x86 seed => simp [opcodeOf] at hop
  | initM128x64 seed => simp [opcodeOf] at hop
  | append payload => exact exec_append_of_invalid hf hv payload
  | finalize dlen => exact exec_finalize_of_invalid hf hv dlen
  | hsize => exact exec_hsize_of_invalid hf hv

theorem exec_finalize_of_length_ne (hs : s.Live) {dlen : W32} (hdlen : dlen.toNat ≠ hashSize s.variant) :
    exec (.finalize dlen) s = .next (raiseFault (.destLength dlen (hashSize s.variant)) s) := by
  rw [exec_finalize_of_live hs, whenDestLength, if_neg hdlen]

theorem exec_finalize_of_length_eq (hs : s.Live) {dlen : W32} (hdlen : dlen.toNat = hashSize s.variant) :
    exec (.finalize dlen) s = .next (resetInstance (respond (.digest (digestOf s)) s)) := by
  rw [exec_finalize_of_live hs, whenDestLength, if_pos hdlen]

/-- A command that ends with the fault latched raised `NoInstance` or `DestLength`: where it succeeds, the latch stays
clear. -/
theorem exec_raised_cases (h : exec i s = .next t) (ht : t.fault = true) :
    (s.valid = false ∧ (opcodeOf i = 0x20 ∨ opcodeOf i = 0x30 ∨ opcodeOf i = 0x40) ∧
      t = raiseFault (.noInstance (opcodeOf i)) s) ∨
    (s.valid = true ∧ ∃ dlen : W32, i = .finalize dlen ∧ dlen.toNat ≠ hashSize s.variant ∧
      t = raiseFault (.destLength dlen (hashSize s.variant)) s) := by
  obtain ⟨hf, ⟨v, seed, rfl, -⟩ | ⟨payload, -, -, rfl⟩ | ⟨dlen, -, -, -, rfl⟩ | ⟨-, -, rfl⟩ |
    ⟨hv, hop, hraise⟩ | ⟨dlen, hi, hv, hdlen, hraise⟩⟩ := exec_cases h
  · simp [hf] at ht
  · simp [hf] at ht
  · simp [hf] at ht
  · simp [hf] at ht
  · exact .inl ⟨hv, hop, hraise⟩
  · exact .inr ⟨hv, dlen, hi, hdlen, hraise⟩

/-- A step that ends with the fault latched is one `raise` on the state with the command's bytes consumed (R252). -/
theorem step_raised (h : step s = .next t) (ht : t.fault = true) :
    ∃ r rest, t = raiseFault r (withStream rest s) := by
  obtain ⟨-, ⟨i, rest, -, hexec⟩ | ⟨hdr, rest, -, hraise⟩⟩ := step_cases h
  · obtain ⟨-, -, hraise⟩ | ⟨-, dlen, -, -, hraise⟩ := exec_raised_cases hexec ht
    · exact ⟨_, rest, hraise⟩
    · exact ⟨_, rest, hraise⟩
  · exact ⟨_, rest, hraise⟩

/-- A command appends at most one record to the log (R92). -/
theorem exec_log_append (h : exec i s = .next t) : ∃ new, t.log = s.log ++ new ∧ new.length ≤ 1 := by
  obtain ⟨-, ⟨v, seed, rfl, -⟩ | ⟨payload, -, -, rfl⟩ | ⟨dlen, -, -, -, rfl⟩ | ⟨-, -, rfl⟩ |
    ⟨-, -, rfl⟩ | ⟨dlen, -, -, -, rfl⟩⟩ := exec_cases h
  · exact ⟨[], by simp⟩
  · exact ⟨[], by simp⟩
  · exact ⟨[_], rfl, le_rfl⟩
  · exact ⟨[_], rfl, le_rfl⟩
  · exact ⟨[_], rfl, le_rfl⟩
  · exact ⟨[_], rfl, le_rfl⟩

theorem step_log_append (h : step s = .next t) : ∃ new, t.log = s.log ++ new ∧ new.length ≤ 1 := by
  obtain ⟨-, ⟨i, rest, -, hexec⟩ | ⟨hdr, rest, -, rfl⟩⟩ := step_cases h
  · exact exec_log_append (s := withStream rest s) hexec
  · exact ⟨[_], rfl, le_rfl⟩

/-- Settles O15: each fault from its own check, and by `exec_raised_cases` from nothing else. -/
theorem faultTable : Obligations.FaultTable := by
  refine fun s hf => ⟨fun b0 b1 b2 b3 b4 rest hstream hillegal => ?illegalCommand,
    fun i hop hv => exec_of_invalid hf hv hop,
    fun dlen hv hdlen => exec_finalize_of_length_ne ⟨hf, hv⟩ hdlen, fun i t h ht => ?nothingElse⟩
  case illegalCommand =>
    exact step_of_illegal hf (hstream ▸ (decode_eq_illegal_iff b0 b1 b2 b3 b4 rest).mpr hillegal)
  case nothingElse =>
    obtain ⟨hv, hop, -⟩ | ⟨hv, dlen, hi, hdlen, -⟩ := exec_raised_cases h ht
    · exact .inl ⟨hv, hop⟩
    · exact .inr ⟨hv, dlen, hi, hdlen⟩

/-- Settles O17: one clause per check of R255, and a step logs at most one record, so at most one fault. -/
theorem firstFailingCheckReported : Obligations.FirstFailingCheckReported := by
  refine fun s => ⟨fun hf t => ?latched, fun hdr rest hf hd => ?illegalCommand,
    fun i rest hf hd hv hop => ?noInstance, fun dlen rest hf hd hv hdlen => ?destLength,
    fun t h => ?atMostOne⟩
  case latched =>
    rw [step_of_fault hf]
    simp
  case illegalCommand => exact ⟨_, step_of_illegal hf hd, rfl, rfl⟩
  case noInstance =>
    have hraise := exec_of_invalid (s := withStream rest s) hf hv hop
    exact ⟨_, (step_of_command hf hd).trans hraise, rfl, rfl⟩
  case destLength =>
    have hraise := exec_finalize_of_length_ne (s := withStream rest s) ⟨hf, hv⟩ hdlen
    exact ⟨_, (step_of_command hf hd).trans hraise, rfl, rfl⟩
  case atMostOne =>
    obtain ⟨new, hlog, hnew⟩ := step_log_append h
    rw [hlog, List.countP_append]
    exact Nat.add_le_add_left (List.countP_le_length.trans hnew) _

/-- Settles O18: the step is one `raise`, which writes the latch and the log only. -/
theorem faultsArePrecise : Obligations.FaultsArePrecise := by
  intro s t h ht
  obtain ⟨r, rest, rfl⟩ := step_raised h ht
  exact ⟨r, rfl⟩

/-- Settles O8: check (0) of R255 in `step` and in every command; hardware reset clears the latch and `valid`. -/
theorem noStepWhileFaulted : Obligations.NoStepWhileFaulted := by
  refine fun s => ⟨fun hf t => ⟨?step, exec_ne_next_of_fault hf⟩, rfl, rfl⟩
  rw [step_of_fault hf]
  simp

/-- Settles O16: FINALIZE's destination check on either side of `HS`, and its success at `HS`. -/
theorem destLengthChecked : Obligations.DestLengthChecked := by
  refine fun dlen s hs => ⟨fun hdlen => ?raises, fun hdlen => ?runs⟩
  case raises => exact exec_finalize_of_length_ne hs (ne_iff_lt_or_gt.mpr hdlen)
  case runs => exact ⟨_, exec_finalize_of_length_eq hs hdlen, hs.1⟩

end Sys2Proof.Machine
end

section
/-! The decoder against the encoder: every command is decoded back from its bytes, whatever follows, and every answer of
the decoder accounts for the bytes it consumed (spec/30_encoding.md R81 to R87, R93). -/

namespace Sys2Proof

/-- A command with a stream after it, as the decoder cuts it: opcode, immediate, and the payload in front of the rest. -/
theorem encode_append (i : Instr) (rest : List Byte) :
    encode i ++ rest = opcodeOf i :: (bytesOf 4 (immOf i) ++ (payloadOf i ++ rest)) := by
  rw [encode, List.cons_append, List.append_assoc]

/-- The opcode table read with a command's own opcode, immediate and payload selects that command (R83). -/
theorem decodeHeader_encode {i : Instr} (hwf : i.wf = true) (hdr rest : List Byte) :
    decodeHeader (opcodeOf i) (BitVec.ofNat 32 (immOf i)) hdr (payloadOf i ++ rest) =
      .command i rest := by
  have himm : (BitVec.ofNat 32 (immOf i)).toNat = immOf i :=
    (BitVec.toNat_ofNat _ _).trans (Nat.mod_eq_of_lt (immOf_lt hwf))
  cases i with
  | append payload =>
    have hlen : (BitVec.ofNat 32 payload.length).toNat = payload.length := himm
    simp [decodeHeader, opcodeOf, immOf, payloadOf, -BitVec.toNat_ofNat, hlen]
  | initM32 seed => simp [decodeHeader, opcodeOf, immOf, payloadOf]
  | initM128x86 seed => simp [decodeHeader, opcodeOf, immOf, payloadOf]
  | initM128x64 seed => simp [decodeHeader, opcodeOf, immOf, payloadOf]
  | finalize dlen => simp [decodeHeader, opcodeOf, immOf, payloadOf]
  | hsize => simp [decodeHeader, opcodeOf, immOf, payloadOf]

/-- Settles O2: a well-formed immediate is read back as it was written, and the opcode table selects the command. -/
theorem decodeOfEncode : Obligations.DecodeOfEncode := by
  intro i rest hwf
  rw [encode_append, decode_header (immOf_lt hwf), decodeHeader_encode hwf]

/-- Settles O4: decoding either encoding gives the other's command and rest. -/
theorem encodingsUnambiguous : Obligations.EncodingsUnambiguous := by
  intro i j r r' hi hj heq
  have hdecoded : Decoded.command i r = .command j r' := by
    rw [← decodeOfEncode i r hi, heq, decodeOfEncode j r' hj]
  exact Decoded.command.inj hdecoded

/-- A header leaves a command incomplete only where it announces more payload than the stream holds (R91). -/
theorem decodeHeader_eq_incomplete_iff (op : Byte) (imm : W32) (hdr rest : List Byte) :
    decodeHeader op imm hdr rest = .incomplete ↔ op = 0x20 ∧ rest.length < imm.toNat := by
  unfold decodeHeader
  split_ifs <;> simp_all

/-- The command the opcode table selects has the header's opcode and immediate, and its payload stood in front of what
is left (R83, R85). -/
theorem decodeHeader_eq_command {op : Byte} {imm : W32} {hdr rest rest' : List Byte} {i : Instr}
    (h : decodeHeader op imm hdr rest = .command i rest') :
    i.wf = true ∧ opcodeOf i = op ∧ immOf i = imm.toNat ∧ payloadOf i ++ rest' = rest := by
  unfold decodeHeader at h
  split_ifs at h with h10 h11 h12 h20 hfits h30 h40 himm
  · obtain ⟨rfl, rfl⟩ := Decoded.command.inj h
    exact ⟨rfl, h10.symm, rfl, rfl⟩
  · obtain ⟨rfl, rfl⟩ := Decoded.command.inj h
    exact ⟨rfl, h11.symm, rfl, rfl⟩
  · obtain ⟨rfl, rfl⟩ := Decoded.command.inj h
    exact ⟨rfl, h12.symm, rfl, rfl⟩
  · obtain ⟨rfl, rfl⟩ := Decoded.command.inj h
    have hlen : (rest.take imm.toNat).length = imm.toNat := List.length_take_of_le hfits
    exact ⟨decide_eq_true (hlen.trans_lt imm.isLt), h20.symm, hlen, List.take_append_drop _ _⟩
  · obtain ⟨rfl, rfl⟩ := Decoded.command.inj h
    exact ⟨rfl, h30.symm, rfl, rfl⟩
  · obtain ⟨rfl, rfl⟩ := Decoded.command.inj h
    exact ⟨rfl, h40.symm, congrArg BitVec.toNat himm.symm, rfl⟩

/-- An illegal header is rejected as it stands, with nothing after it consumed (R84, R86). -/
theorem decodeHeader_eq_illegal {op : Byte} {imm : W32} {hdr rest hdr' rest' : List Byte}
    (h : decodeHeader op imm hdr rest = .illegal hdr' rest') : hdr = hdr' ∧ rest = rest' := by
  unfold decodeHeader at h
  split_ifs at h
  · exact Decoded.illegal.inj h
  · exact Decoded.illegal.inj h

/-- The immediate of a header is the value of its four bytes (R82). -/
theorem toNat_ofNat_le (b1 b2 b3 b4 : Byte) :
    (BitVec.ofNat 32 (le [b1, b2, b3, b4])).toNat = le [b1, b2, b3, b4] :=
  (BitVec.toNat_ofNat _ _).trans (Nat.mod_eq_of_lt (le_lt [b1, b2, b3, b4]))

/-- A stream holds fewer bytes than a header, or a header and what follows it. -/
theorem short_or_header (s : List Byte) :
    s.length < 5 ∨ ∃ b0 b1 b2 b3 b4 rest, s = b0 :: b1 :: b2 :: b3 :: b4 :: rest := by
  match s with
  | b0 :: b1 :: b2 :: b3 :: b4 :: rest => exact .inr ⟨b0, b1, b2, b3, b4, rest, rfl⟩
  | [] | [_] | [_, _] | [_, _, _] | [_, _, _, _] => simp

/-- A stream shorter than a header holds no command yet (R91). -/
theorem decode_of_short {s : List Byte} (hs : s.length < 5) : decode s = .incomplete := by
  unfold decode
  split
  · simp only [List.length_cons] at hs
    omega
  · rfl

theorem decode_eq_incomplete_iff (s : List Byte) :
    decode s = .incomplete ↔
      s.length < 5 ∨ (s.head? = some 0x20 ∧ s.length < 5 + le ((s.drop 1).take 4)) := by
  obtain hshort | ⟨b0, b1, b2, b3, b4, rest, rfl⟩ := short_or_header s
  case inl => simp [decode_of_short hshort, hshort]
  case inr =>
    have hlen : (b0 :: b1 :: b2 :: b3 :: b4 :: rest).length = rest.length + 5 := rfl
    have htake : ((b0 :: b1 :: b2 :: b3 :: b4 :: rest).drop 1).take 4 = [b1, b2, b3, b4] := rfl
    rw [decode, decodeHeader_eq_incomplete_iff, toNat_ofNat_le, hlen, htake, List.head?_cons,
      Option.some_inj, or_iff_right (by omega), and_congr_right_iff]
    omega

/-- A decoded command can be encoded, and its encoding is what the decoder consumed. -/
theorem encode_of_decode {s rest : List Byte} {i : Instr} (h : decode s = .command i rest) :
    i.wf = true ∧ encode i ++ rest = s := by
  obtain hshort | ⟨b0, b1, b2, b3, b4, tail, rfl⟩ := short_or_header s
  case inl =>
    rw [decode_of_short hshort] at h
    cases h
  case inr =>
    obtain ⟨hwf, hop, himm, hpayload⟩ := decodeHeader_eq_command h
    have hbytes : bytesOf 4 (le [b1, b2, b3, b4]) = [b1, b2, b3, b4] := bytesOf_le [b1, b2, b3, b4]
    refine ⟨hwf, ?_⟩
    rw [encode_append, hop, himm, hpayload, toNat_ofNat_le, hbytes]
    rfl

/-- A rejected header is the five bytes the decoder consumed (R84). -/
theorem header_of_decode_illegal {s hdr rest : List Byte} (h : decode s = .illegal hdr rest) :
    hdr.length = 5 ∧ hdr ++ rest = s := by
  obtain hshort | ⟨b0, b1, b2, b3, b4, tail, rfl⟩ := short_or_header s
  case inl =>
    rw [decode_of_short hshort] at h
    cases h
  case inr =>
    obtain ⟨rfl, rfl⟩ := decodeHeader_eq_illegal h
    exact ⟨rfl, rfl⟩

/-- Settles O3: the three answers of the decoder, each read back from the opcode table. -/
theorem decoderTotalAndFaithful : Obligations.DecoderTotalAndFaithful := fun s =>
  ⟨decode_eq_incomplete_iff s, fun _ _ => encode_of_decode, fun _ _ => header_of_decode_illegal⟩

/-- Settles O1: the decoder run on the spec's words. -/
theorem specWordsDecode : Obligations.SpecWordsDecode := by
  refine ⟨?rows, ?stream, ?illegal, ?odd⟩
  case rows => decide
  case stream => decide
  case illegal => decide
  case odd => decide

end Sys2Proof
end

section
/-! Stepping through a command stream: a step runs the command at its front, and no command reads or writes what stands
after it (spec/30_encoding.md R80, R91). -/

namespace Sys2Proof.Machine

variable {s : State}

/-- Settles O7: what the decoder finds is well-formed, and with no fault latched `step` runs it. -/
theorem stepRunsDecoded : Obligations.StepRunsDecoded := fun _ _ _ hf hd =>
  ⟨(encode_of_decode hd).1, step_of_command hf hd⟩

/-- Settles O9: the decoder finds no command on either stream, and the latch comes before the decoder. -/
theorem noStepWithoutCommand : Obligations.NoStepWithoutCommand := by
  refine fun s => ⟨fun hf hempty => ?exhausted, fun hf hne hd => ?inside, step_of_fault⟩
  case exhausted =>
    have hd : decode [] = .incomplete := rfl
    simp [step, hf, hempty, hd]
  case inside => simp [step, hf, hd, hne]

/-! What follows a command in the stream passes through every check as it is. -/

@[simp] theorem mapNext_whenRunning_withStream (bytes : List Byte) (s : State) (k : Result) :
    mapNext (withStream bytes) (whenRunning s k) =
      whenRunning (withStream bytes s) (mapNext (withStream bytes) k) :=
  apply_ite (mapNext (withStream bytes)) _ _ _

@[simp] theorem mapNext_whenInstance_withStream (bytes : List Byte) (op : Byte) (s : State) (k : Result) :
    mapNext (withStream bytes) (whenInstance op s k) =
      whenInstance op (withStream bytes s) (mapNext (withStream bytes) k) :=
  apply_ite (mapNext (withStream bytes)) _ _ _

@[simp] theorem mapNext_whenDestLength_withStream (bytes : List Byte) (dlen : W32) (s : State) (k : Result) :
    mapNext (withStream bytes) (whenDestLength dlen s k) =
      whenDestLength dlen (withStream bytes s) (mapNext (withStream bytes) k) :=
  apply_ite (mapNext (withStream bytes)) _ _ _

/-- No command reads or writes the stream after it. -/
theorem exec_withStream (i : Instr) (bytes : List Byte) (s : State) :
    exec i (withStream bytes s) = mapNext (withStream bytes) (exec i s) := by
  cases i with
  | initM32 seed => simp [exec, execInitM32]
  | initM128x86 seed => simp [exec, execInitM128x86]
  | initM128x64 seed => simp [exec, execInitM128x64]
  | append payload => simp [exec, execAppend]
  | finalize dlen => simp [exec, execFinalize]
  | hsize => simp [exec, execHsize]

/-- One step on the bytes of a command is that command, with its bytes consumed. -/
theorem step_encode {i : Instr} (hwf : i.wf = true) (rest : List Byte) (s : State) :
    step (withStream (encode i ++ rest) s) = mapNext (withStream rest) (exec i s) := by
  rcases Bool.eq_false_or_eq_true s.fault with hf | hf
  · have hexec : exec i s = .fault .latched := (exec_fault_iff i s _).mpr hf
    have hstep : step (withStream (encode i ++ rest) s) = .fault .latched := step_of_fault hf
    rw [hstep, hexec]
    rfl
  · have hd : decode (withStream (encode i ++ rest) s).stream = .command i rest :=
      decodeOfEncode i rest hwf
    rw [step_of_command (s := withStream (encode i ++ rest) s) hf hd, withStream_withStream, exec_withStream]

/-- Stepping through the bytes of commands executes them in order. -/
theorem run_programBytes {is : List Instr} (hwf : ∀ i ∈ is, i.wf = true) (rest : List Byte) (s : State) :
    Sys2Proof.core.run is.length (withStream (programBytes is ++ rest) s) =
      mapNext (withStream rest) (execAll is s) := by
  induction is generalizing s with
  | nil => rfl
  | cons i is ih =>
    obtain ⟨hi, his⟩ := List.forall_mem_cons.mp hwf
    have hstep : Sys2Proof.core.step (withStream (programBytes (i :: is) ++ rest) s) =
        mapNext (withStream (programBytes is ++ rest)) (exec i s) := by
      rw [programBytes, List.flatMap_cons, List.append_assoc]
      exact step_encode hi _ s
    simp only [List.length_cons, Host.Core.run, hstep, execAll]
    cases exec i s with
    | next t => exact ih his t
    | fault r => rfl
    | refused r => rfl

/-- Settles O10: `run_programBytes` is the statement with its result written as `mapNext`. -/
theorem streamRunsCommands : Obligations.StreamRunsCommands := by
  intro is rest s hwf
  rw [run_programBytes hwf]
  cases execAll is s with
  | next t => rfl
  | fault r => rfl
  | refused r => rfl

end Sys2Proof.Machine
end


section
/-! APPEND's statements from its closed form: one chunk (R160 to R171), the chunks of a message (R172), and the digest of
the whole message (R212). -/

namespace Sys2Proof.Machine

variable {s t : State}

/-- Counting in 64 bits is counting modulo `2 ^ 64` (R26). -/
theorem add_ofNat_eq_ofNat (total : ByteCount) (n : Nat) :
    total + BitVec.ofNat 64 n = BitVec.ofNat 64 (total.toNat + n) := by
  rw [BitVec.ofNat_add, BitVec.ofNat_toNat, BitVec.setWidth_eq]

/-- Settles O41: `appendChunk_eq`, with `mixMessage` and `messageTail` written out. -/
theorem appendClosedForm : Obligations.AppendClosedForm := by
  intro payload s hs hc
  rw [exec_append_of_live hs, appendChunk_eq hc, add_ofNat_eq_ofNat, mixMessage, messageTail,
    List.length_append]
  rfl

/-- A chunk that completes no block is only buffered. -/
theorem appendChunk_of_short {src : List Byte}
    (hshort : s.carry.length + src.length < blockSize s.variant) :
    appendChunk src s = { s with
      totalLength := s.totalLength + BitVec.ofNat 64 src.length
      carry := s.carry ++ src } := by
  have hlen : (s.carry ++ src).length < blockSize s.variant := List.length_append ▸ hshort
  rw [appendChunk_eq (Nat.lt_of_add_right_lt hshort), mixMessage_of_short hlen,
    messageTail_of_short hlen]

/-- Settles O42: `CARRY ‖ SRC` is shorter than a block, so it is all tail. -/
theorem shortChunkOnlyBuffers : Obligations.ShortChunkOnlyBuffers := by
  intro payload s hs hshort
  rw [exec_append_of_live hs, appendChunk_of_short hshort, add_ofNat_eq_ofNat]

/-- Settles O43: the empty chunk on an instance, and the check for an instance that comes before it. -/
theorem emptyChunkChangesNothing : Obligations.EmptyChunkChangesNothing := by
  refine fun s hf hc => ⟨fun hv => ?unchanged, fun hv => ?noInstance⟩
  case unchanged => rw [exec_append_of_live ⟨hf, hv⟩, appendChunk_nil hc]
  case noInstance => exact ⟨_, exec_append_of_invalid hf hv [], rfl, rfl⟩

/-- Settles O55: a short chunk is only buffered; otherwise the carry is the tail of `CARRY ‖ SRC`. -/
theorem appendFrame : Obligations.AppendFrame := by
  intro payload s t hv h
  obtain ⟨-, ⟨-, rfl⟩ | ⟨hinvalid, -⟩⟩ := execAppend_next h
  case inr => simp [hv] at hinvalid
  refine ⟨⟨rfl, rfl, rfl, rfl, rfl, rfl, rfl⟩, fun hshort => ?buffers, fun hc _ a ha => ?completes⟩
  case buffers =>
    rw [appendChunk_of_short hshort]
    refine ⟨rfl, fun a ha => ?_⟩
    simp only [carryLen_eq] at ha
    obtain hbefore | hafter := ha
    · exact List.getElem?_append_left hbefore
    · have hnone : (s.carry ++ payload)[a]? = none :=
        List.getElem?_eq_none (List.length_append ▸ hafter)
      rw [readCarry_eq, readCarry_eq, hnone, List.getElem?_eq_none (Nat.le_of_add_right_le hafter)]
  case completes =>
    rw [appendChunk_eq hc]
    refine List.getElem?_eq_none ?_
    rw [length_messageTail, List.length_append]
    exact ha

/-- A list of commands goes on from where the commands before it ended. -/
theorem execAll_append_of_next {is : List Instr} (h : execAll is s = .next t) (js : List Instr) :
    execAll (is ++ js) s = execAll js t := by
  induction is generalizing s with
  | nil => cases h; rfl
  | cons i is ih =>
    rw [List.cons_append, execAll]
    rw [execAll] at h
    cases hexec : exec i s with
    | next u =>
      rw [hexec] at h
      exact ih h
    | fault r => simp [hexec] at h
    | refused r => simp [hexec] at h

theorem execAll_cons_of_next {i : Instr} (h : exec i s = .next t) (is : List Instr) :
    execAll (i :: is) s = execAll is t := by
  rw [execAll, h]

/-- The state after `INIT(v, seed)` and the bytes `m` of a message, whatever their chunking (R172). -/
def afterMessage (v : Variant) (seed : W32) (m : List Byte) (s : State) : State :=
  { createInstance v seed s with
    h := mixMessage (blockSize v) (initState v seed) m
    totalLength := BitVec.ofNat 64 m.length
    carry := messageTail (blockSize v) m }

/-- The chunks of a message on a freshly created instance (R172). -/
theorem execAll_chunks_createInstance (hf : s.Running) (v : Variant) (seed : W32)
    (chunks : List (List Byte)) :
    execAll (chunks.map Instr.append) (createInstance v seed s) =
      .next (afterMessage v seed chunks.flatten s) := by
  have hlive : (createInstance v seed s).Live := ⟨hf, rfl⟩
  have hc : (createInstance v seed s).carry.length < blockSize (createInstance v seed s).variant :=
    blockSize_pos v
  rw [execAll_map_append hlive hc, appendChunk_eq hc]
  simp [afterMessage]

/-- FINALIZE after a message responds with the closed form of its digest (R212). -/
theorem digestOf_afterMessage (v : Variant) (seed : W32) (m : List Byte) (s : State) :
    digestOf (afterMessage v seed m s) = oneShotDigest v seed m := rfl

/-- Settles O45: FINALIZE leaves what INIT creates, so one message in chunks covers both. -/
theorem stateOfMessage : Obligations.StateOfMessage := by
  refine ⟨fun v seed chunks s hf => ?afterInit, fun chunks s hs => ⟨digestOf s, ?afterFinalize⟩⟩
  case afterInit =>
    rw [execAll_cons_of_next (exec_initOf_of_running hf v seed), execAll_chunks_createInstance hf]
    rfl
  case afterFinalize =>
    obtain ⟨hf, hv⟩ := hs
    have hvalid : (respond (.digest (digestOf s)) s).valid = true := hv
    have hrunning : (respond (.digest (digestOf s)) s).Running := hf
    rw [execAll_cons_of_next (exec_finalizeOf_of_live ⟨hf, hv⟩),
      resetInstance_eq_createInstance hvalid, execAll_chunks_createInstance hrunning, hv]
    rfl

/-- Settles O49: FINALIZE on the state of the message, and its reset back to what INIT created. -/
theorem digestOfMessage : Obligations.DigestOfMessage := by
  intro v seed chunks s hf
  have hlive : (afterMessage v seed chunks.flatten s).Live := ⟨hf, rfl⟩
  have hruns : execAll (initOf v seed :: (chunks.map Instr.append ++ [finalizeOf v])) s =
      .next (resetInstance (respond (.digest (oneShotDigest v seed chunks.flatten))
        (afterMessage v seed chunks.flatten s))) := by
    rw [execAll_cons_of_next (exec_initOf_of_running hf v seed),
      execAll_append_of_next (execAll_chunks_createInstance hf v seed chunks),
      ← digestOf_afterMessage v seed chunks.flatten s]
    exact execAll_cons_of_next (exec_finalizeOf_of_live hlive) []
  exact ⟨_, hruns, rfl, rfl, rfl, fun _ => rfl, rfl, rfl, rfl, rfl, rfl⟩

end Sys2Proof.Machine
end


section
/-! What every command and every step keeps: the relations inside an instance (spec/10_state.md R23, R27, R28), the
agreement of the log with the fault latch (R92, R252), and who writes an instance's identity (R21, R22, R29). -/

namespace Sys2Proof.Machine

variable {s t : State} {i : Instr}

theorem shapeOf_mixMessage (bs : Nat) (h : WordTuple) (z : List Byte) :
    shapeOf (mixMessage bs h z) = shapeOf h := by
  rw [mixMessage_eq_mixBlocks, shapeOf_mixBlocks]

/-- The 64-bit count loses nothing modulo a block: the block size divides `2 ^ 64` (R28). -/
theorem toNat_add_ofNat_mod_blockSize (total : ByteCount) (n : Nat) (v : Variant) :
    (total + BitVec.ofNat 64 n).toNat % blockSize v = (total.toNat + n) % blockSize v := by
  have hdvd : blockSize v ∣ 2 ^ 64 := by cases v <;> decide
  rw [add_ofNat_eq_ofNat, BitVec.toNat_ofNat, Nat.mod_mod_of_dvd _ hdvd]

theorem createInstance_instanceWf (v : Variant) (seed : W32) (s : State) :
    (createInstance v seed s).InstanceWf := fun _ =>
  ⟨shapeOf_initState v seed, createInstance_carryWf v seed s, (Nat.zero_mod _).symm⟩

theorem resetInstance_instanceWf (s : State) : (resetInstance s).InstanceWf := fun _ =>
  ⟨shapeOf_initState s.variant s.seed, resetInstance_carryWf s, (Nat.zero_mod _).symm⟩

theorem appendChunk_instanceWf (hv : s.valid = true) (hwf : s.InstanceWf) (src : List Byte) :
    (appendChunk src s).InstanceWf := by
  obtain ⟨hshape, hcarry, hcount⟩ := hwf hv
  refine fun _ => ⟨?shape, appendChunk_carryWf src s hcarry, ?count⟩
  case shape =>
    rw [appendChunk_eq ((carryWf_iff _ _).mp hcarry)]
    exact (shapeOf_mixMessage _ _ _).trans hshape
  case count =>
    have hmod : s.carry.length % blockSize s.variant = s.totalLength.toNat % blockSize s.variant := by
      rw [← carryLen_eq, hcount, Nat.mod_mod]
    calc carryLen (appendChunk src s)
        = (s.carry.length + src.length) % blockSize s.variant := by
          rw [appendChunk_eq ((carryWf_iff _ _).mp hcarry), carryLen_eq, length_messageTail,
            List.length_append]
      _ = (s.totalLength.toNat + src.length) % blockSize s.variant := Nat.ModEq.add_right _ hmod
      _ = (appendChunk src s).totalLength.toNat % blockSize (appendChunk src s).variant :=
          (toNat_add_ofNat_mod_blockSize _ _ _).symm

theorem exec_keeps_instanceWf (hwf : s.InstanceWf) (h : exec i s = .next t) : t.InstanceWf := by
  obtain ⟨-, ⟨v, seed, rfl, -⟩ | ⟨payload, -, hv, rfl⟩ | ⟨dlen, -, -, -, rfl⟩ | ⟨-, -, rfl⟩ |
    ⟨-, -, rfl⟩ | ⟨dlen, -, -, -, rfl⟩⟩ := exec_cases h
  · exact createInstance_instanceWf v seed s
  · exact appendChunk_instanceWf hv hwf payload
  · exact resetInstance_instanceWf _
  · exact hwf
  · exact hwf
  · exact hwf

/-- Settles O51: every command keeps the relations, and neither the stream nor a fault touches an instance. -/
theorem stepKeepsInstanceWf : Obligations.StepKeepsInstanceWf := by
  intro s t hwf h
  obtain ⟨-, ⟨i, rest, -, hexec⟩ | ⟨hdr, rest, -, rfl⟩⟩ := step_cases h
  · exact exec_keeps_instanceWf (s := withStream rest s) hwf hexec
  · exact hwf

@[simp] theorem lastFault_append_singleton (log : List Response) (x : Response) :
    lastFault (log ++ [x]) = match x with
      | .fault r => some r
      | _ => none := by
  rw [lastFault, List.getLast?_concat]
  cases x <;> rfl

/-- While no fault is latched the log agrees with the latch exactly when it holds no fault record. -/
theorem logWf_iff_of_running (hf : s.Running) :
    s.LogWf ↔ ∀ x ∈ s.log, isFaultRecord x = false := by
  rcases List.eq_nil_or_concat s.log with hlog | ⟨before, x, hlog⟩
  · simp [State.LogWf, hlog, hf, lastFault]
  · rw [List.concat_eq_append] at hlog
    cases x <;> simp [State.LogWf, hlog, hf, isFaultRecord, or_imp, forall_and]

/-- Raising a fault ends the log with its record and latches its kind (R252). -/
theorem logWf_raiseFault (hf : s.Running) (hwf : s.LogWf) (r : FaultRecord) :
    (raiseFault r s).LogWf := by
  have hnone := (logWf_iff_of_running hf).mp hwf
  simpa [State.LogWf] using hnone

/-- A record of a command that succeeds is no fault record. -/
theorem logWf_respond (hf : s.Running) (hwf : s.LogWf) {x : Response} (hx : isFaultRecord x = false) :
    (respond x s).LogWf := by
  have hnone := (logWf_iff_of_running hf).mp hwf
  have hnone' : ∀ y ∈ (respond x s).log, isFaultRecord y = false := by
    simpa [or_imp, forall_and, hx] using hnone
  exact (logWf_iff_of_running (s := respond x s) hf).mpr hnone'

theorem exec_keeps_logWf (hwf : s.LogWf) (h : exec i s = .next t) : t.LogWf := by
  obtain ⟨hf, ⟨v, seed, rfl, -⟩ | ⟨payload, -, -, rfl⟩ | ⟨dlen, -, -, -, rfl⟩ | ⟨-, -, rfl⟩ |
    ⟨-, -, rfl⟩ | ⟨dlen, -, -, -, rfl⟩⟩ := exec_cases h
  · exact hwf
  · exact hwf
  · exact logWf_respond hf hwf rfl
  · exact logWf_respond hf hwf rfl
  · exact logWf_raiseFault hf hwf _
  · exact logWf_raiseFault hf hwf _

/-- Settles O52: a record is appended only while no fault is latched, so only a fault record latches one. -/
theorem stepKeepsLogWf : Obligations.StepKeepsLogWf := by
  intro s t hwf h
  obtain ⟨hf, ⟨i, rest, -, hexec⟩ | ⟨hdr, rest, -, rfl⟩⟩ := step_cases h
  · exact exec_keeps_logWf (s := withStream rest s) hwf hexec
  · exact logWf_raiseFault (s := withStream rest s) hf hwf _

/-- Settles O53: with no instance and an empty log both invariants hold, whatever the stream. -/
theorem resetState : Obligations.ResetState := by
  have hbase : ∀ bytes, (withStream bytes State.reset).InstanceWf ∧
      (withStream bytes State.reset).LogWf := fun bytes =>
    ⟨fun hv => absurd hv Bool.false_ne_true, rfl, rfl, rfl⟩
  rintro s (rfl | ⟨r, rfl⟩)
  · exact ⟨rfl, rfl, rfl, hbase []⟩
  · exact ⟨rfl, rfl, rfl, hbase r.stream⟩

theorem immOf_initOf (v : Variant) (seed : W32) : immOf (initOf v seed) = seed.toNat := by
  cases v <;> rfl

/-- A command that needs an instance is no INIT. -/
theorem variantOfInit_eq_none
    (hop : opcodeOf i = 0x20 ∨ opcodeOf i = 0x30 ∨ opcodeOf i = 0x40) : variantOfInit i = none := by
  cases i with
  | initM32 seed => simp [opcodeOf] at hop
  | initM128x86 seed => simp [opcodeOf] at hop
  | initM128x64 seed => simp [opcodeOf] at hop
  | append payload => rfl
  | finalize dlen => rfl
  | hsize => rfl

/-- The three INIT commands, each with the variant it names (R83). -/
theorem eq_initOf {v : Variant} {seed : W32}
    (h : i = .initM32 seed ∧ v = .v32 ∨ i = .initM128x86 seed ∧ v = .v128x86 ∨
      i = .initM128x64 seed ∧ v = .v128x64) : i = initOf v seed := by
  obtain ⟨rfl, rfl⟩ | ⟨rfl, rfl⟩ | ⟨rfl, rfl⟩ := h
  · rfl
  · rfl
  · rfl

/-- A command is an INIT that creates its instance, or keeps the identity of the one there is. -/
theorem exec_identity_cases (h : exec i s = .next t) :
    (∃ v seed, i = initOf v seed ∧ t = createInstance v seed s) ∨
    (variantOfInit i = none ∧ t.variant = s.variant ∧ t.seed = s.seed ∧ t.valid = s.valid) := by
  obtain ⟨-, ⟨v, seed, rfl, hi⟩ | ⟨payload, rfl, -, rfl⟩ | ⟨dlen, rfl, -, -, rfl⟩ | ⟨rfl, -, rfl⟩ |
    ⟨-, hop, rfl⟩ | ⟨dlen, rfl, -, -, rfl⟩⟩ := exec_cases h
  · exact .inl ⟨v, seed, eq_initOf hi, rfl⟩
  · exact .inr ⟨rfl, rfl, rfl, rfl⟩
  · exact .inr ⟨rfl, rfl, rfl, rfl⟩
  · exact .inr ⟨rfl, rfl, rfl, rfl⟩
  · exact .inr ⟨variantOfInit_eq_none hop, rfl, rfl, rfl⟩
  · exact .inr ⟨rfl, rfl, rfl, rfl⟩

/-- Settles O19: an INIT writes its own variant and seed, every other command keeps what there is. -/
theorem onlyInitSetsIdentity : Obligations.OnlyInitSetsIdentity := by
  intro i s t h
  obtain ⟨v, seed, rfl, rfl⟩ | ⟨hnone, hvariant, hseed, hvalid⟩ := exec_identity_cases h
  · rw [variantOfInit_initOf, immOf_initOf, BitVec.ofNat_toNat, BitVec.setWidth_eq]
    refine ⟨fun hnone => (nomatch hnone), fun w hw => ⟨Option.some.inj hw, rfl, rfl⟩, fun _ => rfl⟩
  · rw [hnone, hvalid]
    exact ⟨fun _ => ⟨hvariant, hseed, rfl⟩, fun _ hv => (nomatch hv), id⟩

/-- Settles O20: a raising command logs its fault record, the others what their meaning responds. -/
theorem responsesPerCommand : Obligations.ResponsesPerCommand := by
  refine fun i s t h => ⟨fun ht => ?raises, fun ht => ?succeeds⟩
  case raises =>
    obtain ⟨-, -, rfl⟩ | ⟨-, dlen, -, -, rfl⟩ := exec_raised_cases h ht
    · exact ⟨_, rfl⟩
    · exact ⟨_, rfl⟩
  case succeeds =>
    obtain ⟨-, ⟨v, seed, rfl, hi⟩ | ⟨payload, rfl, -, rfl⟩ | ⟨dlen, rfl, -, -, rfl⟩ | ⟨rfl, -, rfl⟩ |
      ⟨-, -, rfl⟩ | ⟨dlen, -, -, -, rfl⟩⟩ := exec_cases h
    · obtain ⟨rfl, rfl⟩ | ⟨rfl, rfl⟩ | ⟨rfl, rfl⟩ := hi
      · exact (List.append_nil _).symm
      · exact (List.append_nil _).symm
      · exact (List.append_nil _).symm
    · exact (List.append_nil _).symm
    · rfl
    · rfl
    · cases ht
    · cases ht

end Sys2Proof.Machine
end

section
/-! Command by command: what INIT creates (spec/44_lifecycle.md R231, R232), what FINALIZE completes
(spec/43_finalize.md R190, R208), what each leaves unchanged, and what none reads before an INIT (spec/10_state.md
R29). -/

namespace Sys2Proof.Machine

variable {s t : State}

/-- Settles O12: INIT.M128X86 is `INIT(V128X86, seed)` (R233), with four initial words. -/
theorem initM128x86Creates : Obligations.InitM128x86Creates := by
  intro seed s
  exact ⟨encode_initOf .v128x86 seed, fun hf => exec_initOf_of_running hf .v128x86 seed,
    fun hf _ => exec_ne_next_of_fault hf _⟩

/-- Settles O13: INIT.M128X64 is `INIT(V128X64, seed)` (R233), with two initial words. -/
theorem initM128x64Creates : Obligations.InitM128x64Creates := by
  refine fun seed _ => ⟨encode_initOf .v128x64 seed, fun hf => ?creates,
    fun hf _ => exec_ne_next_of_fault hf _⟩
  case creates =>
    rw [BitVec.ofNat_toNat]
    exact exec_initOf_of_running hf .v128x64 seed

/-- Settles O54: INIT writes the instance only, and `INIT(v, s)` empties the carry. -/
theorem initFrame : Obligations.InitFrame := by
  intro v seed s t h
  obtain ⟨hf, -⟩ := exec_cases h
  rw [exec_initOf_of_running hf] at h
  cases h
  exact ⟨rfl, rfl, rfl, rfl, fun _ => rfl⟩

/-- A FINALIZE is its opcode and the four bytes of `dlen`; it has no payload (R81, R83). -/
theorem encode_finalize (dlen : W32) :
    encode (.finalize dlen) = 0x30 :: bytesOf 4 dlen.toNat :=
  congrArg (_ :: ·) (List.append_nil _)

/-- Settles O46: FINALIZE's two checks in their order, and its meaning where both pass. -/
theorem finalizeCompletes : Obligations.FinalizeCompletes := fun dlen _ =>
  ⟨encode_finalize dlen, fun hf hv => exec_finalize_of_invalid hf hv dlen,
    fun hs hdlen => exec_finalize_of_length_ne hs hdlen,
    fun hs hdlen => exec_finalize_of_length_eq hs hdlen⟩

@[simp] theorem shapeOf_tailFold (h : WordTuple) (t : List Byte) : shapeOf (tailFold h t) = shapeOf h := by
  cases h <;> simp only [tailFold, shapeOf]

@[simp] theorem shapeOf_finMix (h : WordTuple) (t : ByteCount) : shapeOf (finMix h t) = shapeOf h := by
  cases h <;> simp only [finMix, shapeOf]

theorem length_digestOf (s : State) : (digestOf s).length = hashSize (shapeOf s.h) := by
  rw [digestOf, length_wrwords, shapeOf_finMix, shapeOf_tailFold]

/-- Settles O47: the digest has the length of its words' shape, which is the variant's, and FINALIZE ran. -/
theorem digestFillsDestination : Obligations.DigestFillsDestination := by
  intro dlen s t hs hwf h ht
  obtain ⟨hshape, -, -⟩ := hwf hs.2
  have hlen : (digestOf s).length = hashSize s.variant := hshape ▸ length_digestOf s
  obtain ⟨-, ⟨-, hdlen, rfl⟩ | ⟨-, -, rfl⟩ | ⟨-, rfl⟩⟩ := execFinalize_next h
  · exact ⟨digestOf s, rfl, hlen, hlen.trans hdlen.symm⟩
  · cases ht
  · cases ht

/-- Settles O56: FINALIZE resets the instance, or raises a fault and touches nothing of it. -/
theorem finalizeFrame : Obligations.FinalizeFrame := by
  intro dlen s t h
  obtain ⟨hf, ⟨-, -, rfl⟩ | ⟨-, -, rfl⟩ | ⟨-, rfl⟩⟩ := execFinalize_next h
  · refine ⟨rfl, rfl, rfl, rfl, fun _ => ⟨rfl, fun _ => rfl⟩, fun ht => ?_⟩
    simp [hf] at ht
  · exact ⟨rfl, rfl, rfl, rfl, fun ht => (Bool.noConfusion ht), fun _ => ⟨rfl, rfl, fun _ => rfl⟩⟩
  · exact ⟨rfl, rfl, rfl, rfl, fun ht => (Bool.noConfusion ht), fun _ => ⟨rfl, rfl, fun _ => rfl⟩⟩

/-- Settles O57: HSIZE responds, or raises a fault where there is no instance. -/
theorem hsizeFrame : Obligations.HsizeFrame := by
  intro s t h
  obtain ⟨-, ⟨-, rfl⟩ | ⟨hinvalid, rfl⟩⟩ := execHsize_next h
  · exact ⟨rfl, rfl, rfl, rfl, rfl, fun _ => rfl, rfl, fun _ => ⟨rfl, rfl⟩⟩
  · refine ⟨rfl, rfl, rfl, rfl, rfl, fun _ => rfl, rfl, fun hv => ?_⟩
    simp [hinvalid] at hv

/-- Without an instance a command is an INIT, or raises `NoInstance` (R29). -/
theorem exec_cases_of_invalid {i : Instr} (hv : s.valid = false) (h : exec i s = .next t) :
    (∃ v seed, i = initOf v seed ∧ t = createInstance v seed s) ∨
    ((opcodeOf i = 0x20 ∨ opcodeOf i = 0x30 ∨ opcodeOf i = 0x40) ∧
      t = raiseFault (.noInstance (opcodeOf i)) s) := by
  obtain ⟨-, ⟨v, seed, rfl, hi⟩ | ⟨payload, -, hvalid, -⟩ | ⟨dlen, -, hvalid, -, -⟩ |
    ⟨-, hvalid, -⟩ | ⟨-, hop, rfl⟩ | ⟨dlen, -, hvalid, -, -⟩⟩ := exec_cases h
  · exact .inl ⟨v, seed, eq_initOf hi, rfl⟩
  · simp [hv] at hvalid
  · simp [hv] at hvalid
  · simp [hv] at hvalid
  · exact .inr ⟨hop, rfl⟩
  · simp [hv] at hvalid

/-- Settles O58: an INIT overwrites the elements that hold no value, and every other step without an instance raises a
fault that reads none of them. -/
theorem beforeInitNothingIsRead : Obligations.BeforeInitNothingIsRead := by
  intro s s' t hv hv' hfault hkind hlog hstream h
  obtain ⟨hf, ⟨i, rest, hd, hexec⟩ | ⟨hdr, rest, hd, rfl⟩⟩ := step_cases h
  all_goals
    have hf' : s'.Running := hfault.symm.trans hf
    rw [hstream] at hd
  case inr =>
    exact ⟨_, step_of_illegal hf' hd, hv.trans hv'.symm, rfl, rfl,
      congrArg (· ++ _) hlog, rfl, fun ht => absurd (hv.symm.trans ht) Bool.false_ne_true⟩
  case inl =>
    have hstep : step s' = exec i (withStream rest s') := step_of_command hf' hd
    obtain ⟨v, seed, rfl, rfl⟩ | ⟨hop, rfl⟩ := exec_cases_of_invalid (s := withStream rest s) hv hexec
    · rw [exec_initOf_of_running (s := withStream rest s') hf'] at hstep
      exact ⟨_, hstep, rfl, hfault, hkind, hlog, rfl,
        fun _ => State.ext rfl hfault hkind rfl rfl rfl rfl rfl hlog rfl⟩
    · rw [exec_of_invalid (s := withStream rest s') hf' hv' hop] at hstep
      exact ⟨_, hstep, hv.trans hv'.symm, rfl, rfl, congrArg (· ++ _) hlog, rfl,
        fun ht => absurd (hv.symm.trans ht) Bool.false_ne_true⟩

end Sys2Proof.Machine
end

section
/-! The assembler's text (spec/30_encoding.md R88, R89). -/

namespace Sys2Proof.Machine

/-- Settles O60: the assembler run on the spec's lines and on the lines it refuses. -/
theorem assemblerText : Obligations.AssemblerText := by
  refine ⟨by decide, by decide, by decide, by decide, by decide, by decide, by decide, by decide,
    fun _ => rfl, by decide, by decide, by decide⟩

end Sys2Proof.Machine
end


section
/-! The block codec: a concatenation of bytes is a concatenation of words, most significant part last in the block
(spec/40_block_codec.md R110 to R116), and reading and writing words undo each other (R118). -/

namespace Sys2Proof.Machine

theorem readWord_writeWord {w : Nat} (hw : w % 8 = 0) (x : BitVec w) : readWord w (writeWord x) = x := by
  have hbytes : 8 * (w / 8) = w := by omega
  have hx : x.toNat < 2 ^ (8 * (w / 8)) := hbytes.symm ▸ x.isLt
  rw [readWord, writeWord, le_bytesOf hx, BitVec.ofNat_toNat, BitVec.setWidth_eq]

/-- The bytes that come later in memory are the upper part of the word. -/
theorem readWord_append {v w : Nat} {a b : List Byte} (ha : 8 * a.length = v) (hb : 8 * b.length = w) :
    readWord (w + v) (a ++ b) = readWord w b ++ readWord v a := by
  have hfit : 8 * (a ++ b).length ≤ w + v := by rw [List.length_append]; omega
  have hlow : le a < 2 ^ v := ha ▸ le_lt a
  apply BitVec.eq_of_toNat_eq
  rw [toNat_readWord hfit, BitVec.toNat_append, toNat_readWord ha.le, toNat_readWord hb.le, le_append,
    ha, ← Nat.shiftLeft_add_eq_or_of_lt hlow, Nat.shiftLeft_eq, Nat.add_comm, Nat.mul_comm]

/-- One byte is its own word. -/
theorem readWord_singleton (b : Byte) : readWord 8 [b] = b :=
  BitVec.eq_of_toNat_eq (toNat_readWord (w := 8) (b := [b]) le_rfl)

theorem readWord_cons {w : Nat} (b : Byte) {bs : List Byte} (hbs : 8 * bs.length = w) :
    readWord (w + 8) (b :: bs) = readWord w bs ++ b := by
  rw [← List.singleton_append, readWord_append (a := [b]) (v := 8) rfl hbs, readWord_singleton]

theorem rdblkV32_bytes (b0 b1 b2 b3 : Byte) :
    rdblkV32 [b0, b1, b2, b3] = b3 ++ b2 ++ b1 ++ b0 := by
  calc rdblkV32 [b0, b1, b2, b3]
      = readWord 24 [b1, b2, b3] ++ b0 := readWord_cons b0 rfl
    _ = readWord 16 [b2, b3] ++ b1 ++ b0 := congrArg (· ++ b0) (readWord_cons b1 rfl)
    _ = readWord 8 [b3] ++ b2 ++ b1 ++ b0 := congrArg (· ++ b1 ++ b0) (readWord_cons b2 rfl)
    _ = b3 ++ b2 ++ b1 ++ b0 := congrArg (· ++ b2 ++ b1 ++ b0) (readWord_singleton b3)

/-- A read across two neighbouring ranges is the read of the one and then of the other. -/
theorem memRead_append_memRead (b : List Byte) (addr m n : Nat) :
    memRead b addr m ++ memRead b (addr + m) n = memRead b addr (m + n) := by
  rw [memRead, memRead, memRead, List.take_add, List.drop_drop]

/-- A 64-bit word of a block is two neighbouring 32-bit words, the later one on top (R52). -/
theorem readWord_64_memRead {b : List Byte} {addr : Nat} (hb : addr + 8 ≤ b.length) :
    readWord 64 (memRead b addr 8) =
      readWord 32 (memRead b (addr + 4) 4) ++ readWord 32 (memRead b addr 4) := by
  have hlow : 8 * (memRead b addr 4).length = 32 := by rw [length_memRead]; omega
  have hhigh : 8 * (memRead b (addr + 4) 4).length = 32 := by rw [length_memRead]; omega
  rw [← memRead_append_memRead b addr 4 4]
  exact readWord_append hlow hhigh

/-- A read of exactly one part of a concatenation. -/
theorem memRead_part {p a q : List Byte} {addr n : Nat} (hp : p.length = addr) (ha : a.length = n) :
    memRead (p ++ (a ++ q)) addr n = a := by
  rw [memRead, List.drop_left' hp, List.take_left' ha]

theorem rdblkV128x86_append {c0 c1 c2 c3 : List Byte} (h0 : c0.length = 4) (h1 : c1.length = 4)
    (h2 : c2.length = 4) (h3 : c3.length = 4) :
    rdblkV128x86 (c0 ++ c1 ++ c2 ++ c3) =
      ⟨readWord 32 c0, readWord 32 c1, readWord 32 c2, readWord 32 c3⟩ := by
  have r0 : memRead ([] ++ (c0 ++ (c1 ++ c2 ++ c3))) 0 4 = c0 := memRead_part rfl h0
  have r1 : memRead (c0 ++ (c1 ++ (c2 ++ c3))) 4 4 = c1 := memRead_part h0 h1
  have r2 : memRead (c0 ++ c1 ++ (c2 ++ c3)) 8 4 = c2 := memRead_part (by simp [h0, h1]) h2
  have r3 : memRead (c0 ++ c1 ++ c2 ++ (c3 ++ [])) 12 4 = c3 := memRead_part (by simp [h0, h1, h2]) h3
  simp only [List.append_assoc, List.nil_append, List.append_nil] at r0 r1 r2 r3
  simp only [rdblkV128x86, List.append_assoc, r0, r1, r2, r3]

theorem rdblkV128x64_append {c0 c1 : List Byte} (h0 : c0.length = 8) (h1 : c1.length = 8) :
    rdblkV128x64 (c0 ++ c1) = ⟨readWord 64 c0, readWord 64 c1⟩ := by
  have r0 : memRead ([] ++ (c0 ++ c1)) 0 8 = c0 := memRead_part rfl h0
  have r1 : memRead (c0 ++ (c1 ++ [])) 8 8 = c1 := memRead_part h0 h1
  simp only [List.nil_append, List.append_nil] at r0 r1
  rw [rdblkV128x64, r0, r1]

/-- On four bytes the one word of `V32` is the word they spell (R111). -/
theorem rdblkV32_eq {c : List Byte} (hc : c.length = 4) : rdblkV32 c = readWord 32 c := by
  rw [rdblkV32, ← hc, memRead_all]

/-- Settles O22: a word of bytes put together, and a block of words cut apart. -/
theorem blockWordsLittleEndian : Obligations.BlockWordsLittleEndian := by
  refine ⟨rdblkV32_bytes, fun c0 c1 c2 c3 h0 h1 h2 h3 => ?words, fun b hb => ⟨?low, ?high⟩⟩
  case words =>
    rw [rdblkV128x86_append h0 h1 h2 h3, rdblkV32_eq h0, rdblkV32_eq h1, rdblkV32_eq h2,
      rdblkV32_eq h3]
  case low => exact readWord_64_memRead (addr := 0) (by omega)
  case high => exact readWord_64_memRead (addr := 8) (by omega)

theorem rdblk_wrwords (x : WordTuple) : rdblk (shapeOf x) (wrwords x) = x := by
  cases x with
  | v32 w =>
    rw [shapeOf, rdblk, wrwords, wrwordsV32, rdblkV32_eq (length_writeWord w), readWord_writeWord rfl]
  | v128x86 q =>
    rw [shapeOf, rdblk, wrwords, wrwordsV128x86, rdblkV128x86_append (length_writeWord _)
      (length_writeWord _) (length_writeWord _) (length_writeWord _), readWord_writeWord rfl,
      readWord_writeWord rfl, readWord_writeWord rfl, readWord_writeWord rfl]
  | v128x64 p =>
    rw [shapeOf, rdblk, wrwords, wrwordsV128x64,
      rdblkV128x64_append (length_writeWord _) (length_writeWord _), readWord_writeWord rfl,
      readWord_writeWord rfl]

/-- A word read from the middle of a block writes back the bytes it was read from. -/
theorem writeWord_readWord_memRead {w : Nat} {b : List Byte} (hw : w % 8 = 0) (addr : Nat)
    (hb : addr + w / 8 ≤ b.length) :
    writeWord (readWord w (memRead b addr (w / 8))) = memRead b addr (w / 8) := by
  refine writeWord_readWord ?_
  rw [length_memRead]
  omega

theorem wrwords_rdblk {v : Variant} {b : List Byte} (hb : b.length = blockSize v) :
    wrwords (rdblk v b) = b := by
  have hall : memRead b 0 (blockSize v) = b := hb ▸ memRead_all b
  cases v with
  | v32 => exact (writeWord_readWord_memRead (w := 32) rfl 0 hb.ge).trans hall
  | v128x86 =>
    have hword (addr : Nat) (haddr : addr + 4 ≤ 16) :
        writeWord (readWord 32 (memRead b addr 4)) = memRead b addr 4 :=
      writeWord_readWord_memRead (w := 32) rfl addr (haddr.trans_eq hb.symm)
    simp only [rdblk, wrwords, wrwordsV128x86, rdblkV128x86]
    rw [hword 0 (by decide), hword 4 (by decide), hword 8 (by decide), hword 12 (by decide),
      memRead_append_memRead b 0 4 4, memRead_append_memRead b 0 8 4, memRead_append_memRead b 0 12 4]
    exact hall
  | v128x64 =>
    have hword (addr : Nat) (haddr : addr + 8 ≤ 16) :
        writeWord (readWord 64 (memRead b addr 8)) = memRead b addr 8 :=
      writeWord_readWord_memRead (w := 64) rfl addr (haddr.trans_eq hb.symm)
    simp only [rdblk, wrwords, wrwordsV128x64, rdblkV128x64]
    rw [hword 0 (by decide), hword 8 (by decide), memRead_append_memRead b 0 8 8]
    exact hall

theorem shapeOf_rdblk (v : Variant) (b : List Byte) : shapeOf (rdblk v b) = v := by
  cases v <;> rfl

/-- Settles O23: the two round trips. -/
theorem blockCodecRoundTrip : Obligations.BlockCodecRoundTrip :=
  ⟨rdblk_wrwords, fun v b hb => ⟨shapeOf_rdblk v b, wrwords_rdblk hb⟩⟩

end Sys2Proof.Machine
end

section
/-! The bijections of one word: rotation (spec/00_scope.md R11), multiplication by an odd constant and the XOR of a
shifted copy. From them the scrambles (spec/41_mixer.md R136) and the avalanches (spec/43_finalize.md R199). -/

namespace Sys2Proof.Machine

variable {w : Nat}

theorem rotl_eq_rotateLeft {r : Nat} (hr : r < w) (x : BitVec w) : rotl x r = x.rotateLeft r := by
  rw [rotl, BitVec.rotateLeft_def, Nat.mod_eq_of_lt hr]

/-- Settles O26: the bits below `N - r` move up by `r`, the others come in from below. -/
theorem rotationMovesBits : Obligations.RotationMovesBits := by
  intro n x r i hr hrn hin
  rw [rotl_eq_rotateLeft hrn, BitVec.getLsbD_rotateLeft, Nat.mod_eq_of_lt hrn]
  by_cases hwrap : i + r < n
  · have hge : ¬ i + r < r := by omega
    rw [Nat.mod_eq_of_lt hwrap]
    simp [hge, hwrap]
  · have hmod : (i + r) % n = i + r - n := by
      rw [Nat.mod_eq_sub_mod (by omega), Nat.mod_eq_of_lt (by omega)]
    have hlt : i + r - n < r := by omega
    have hback : n - r + (i + r - n) = i := by omega
    rw [hmod, hback]
    simp [hlt]

theorem rotl_injective {r : Nat} (hr : 0 < r) (hrw : r < w) :
    Function.Injective fun x : BitVec w => rotl x r := by
  intro x y hxy
  refine BitVec.eq_of_getLsbD_eq fun i hi => ?_
  rw [← rotationMovesBits w x r i hr hrw hi, ← rotationMovesBits w y r i hr hrw hi]
  exact congrArg (BitVec.getLsbD · _) hxy

theorem mul_left_injective_of_odd {c : BitVec w} (hc : Odd c.toNat) :
    Function.Injective fun x : BitVec w => x * c := by
  intro x y hxy
  have hcoprime : (2 ^ w).gcd c.toNat = 1 := (Nat.coprime_two_left.mpr hc).pow_left w
  have hmod : x.toNat * c.toNat ≡ y.toNat * c.toNat [MOD 2 ^ w] := by
    simpa [Nat.ModEq] using congrArg BitVec.toNat hxy
  exact BitVec.eq_of_toNat_eq
    ((Nat.ModEq.cancel_right_of_coprime hcoprime hmod).eq_of_lt_of_lt x.isLt y.isLt)

/-- A value equal to its own right shift is zero. -/
theorem eq_zero_of_ushiftRight_eq {x : BitVec w} {k : Nat} (hk : 0 < k) (hx : x >>> k = x) : x = 0 := by
  have hdiv : x.toNat / 2 ^ k = x.toNat := by
    rw [← Nat.shiftRight_eq_div_pow, ← BitVec.toNat_ushiftRight, hx]
  have hpow : 1 < 2 ^ k := Nat.one_lt_two_pow hk.ne'
  refine BitVec.eq_of_toNat_eq (Nat.eq_zero_of_not_pos fun hpos => ?_)
  exact absurd hdiv (Nat.div_lt_self hpos hpow).ne

theorem xorShift_injective {k : Nat} (hk : 0 < k) :
    Function.Injective fun x : BitVec w => xorShift x k := by
  intro x y hxy
  have hshift : (x ^^^ y) >>> k = x ^^^ y := by
    calc (x ^^^ y) >>> k
        = x ^^^ (x ^^^ x >>> k) ^^^ y >>> k := by
          rw [BitVec.ushiftRight_xor_distrib, ← BitVec.xor_assoc, BitVec.xor_self, BitVec.zero_xor]
      _ = x ^^^ (y ^^^ y >>> k) ^^^ y >>> k := by rw [show x ^^^ x >>> k = y ^^^ y >>> k from hxy]
      _ = x ^^^ y := by
          rw [BitVec.xor_assoc, BitVec.xor_assoc, BitVec.xor_self, BitVec.xor_zero]
  exact BitVec.xor_eq_zero_iff.mp (eq_zero_of_ushiftRight_eq hk hshift)

/-- What makes a line's scramble a bijection: odd multipliers, and rotations that move every bit (R132, R134, R137). -/
abbrev Line.Invertible (l : Line w) : Prop :=
  Odd l.ca.toNat ∧ Odd l.cb.toNat ∧ (0 < l.rk ∧ l.rk < w) ∧ (0 < l.rh ∧ l.rh < w)

theorem kscr_injective {l : Line w} (hl : l.Invertible) : Function.Injective (kscr l) := by
  obtain ⟨hca, hcb, ⟨hrk, hrkw⟩, -⟩ := hl
  exact (mul_left_injective_of_odd hcb).comp
    ((rotl_injective hrk hrkw).comp (mul_left_injective_of_odd hca))

/-- Every scramble fixes 0 (R136). -/
@[simp] theorem kscr_zero (l : Line w) : kscr l 0 = 0 := by
  simp [kscr, rotl]

theorem kscr_bijective {l : Line w} (hl : l.Invertible) : Function.Bijective (kscr l) :=
  Finite.injective_iff_bijective.mp (kscr_injective hl)

theorem lines32_invertible :
    ∀ l ∈ [lineV32, lineX86w1, lineX86w2, lineX86w3, lineX86w4], l.Invertible := by decide

theorem lines64_invertible : ∀ l ∈ [lineX64w1, lineX64w2], l.Invertible := by decide

/-- Settles O31: each line's multipliers are odd and its rotation is neither empty nor whole. -/
theorem scramblesAreBijections : Obligations.ScramblesAreBijections :=
  ⟨fun l hl => ⟨kscr_zero l, kscr_bijective (lines32_invertible l hl)⟩,
    fun l hl => ⟨kscr_zero l, kscr_bijective (lines64_invertible l hl)⟩⟩

end Sys2Proof.Machine
end

section
/-! The bijections of a state: the lines of the mixer, each for a fixed block word and next word (spec/41_mixer.md R140),
and the steps of FINALIZE (spec/43_finalize.md R199, R206). On finite types it is enough that they are injective. -/

namespace Sys2Proof.Machine

variable {w : Nat}

/-- For a fixed block word the first half of a line loses nothing of the state word (R131). -/
theorem foldLine_injective (l : Line w) (k : BitVec w) : Function.Injective (foldLine l · k) :=
  fun _ _ => (BitVec.xor_left_inj _).mp

/-- 5 is odd in every width of at least one bit. -/
theorem odd_toNat_five (hw : 0 < w) : Odd (5 : BitVec w).toNat := by
  have hdvd : 2 ∣ 2 ^ w := dvd_pow_self 2 hw.ne'
  have hval : (5 : BitVec w).toNat = 5 % 2 ^ w := rfl
  rw [hval, Nat.odd_iff, Nat.mod_mod_of_dvd _ hdvd]

/-- For a fixed next word the second half of a line loses nothing of the state word (R131). -/
theorem returnLine_injective {l : Line w} (hl : l.Invertible) (next : BitVec w) :
    Function.Injective (returnLine l · next) := by
  obtain ⟨-, -, -, hrh, hrhw⟩ := hl
  intro x y hxy
  have hmul : (rotl x l.rh + next) * 5 = (rotl y l.rh + next) * 5 := (BitVec.add_left_inj _).mp hxy
  have hadd : rotl x l.rh + next = rotl y l.rh + next :=
    mul_left_injective_of_odd (odd_toNat_five (hrh.trans hrhw)) hmul
  exact rotl_injective hrh hrhw ((BitVec.add_left_inj _).mp hadd)

/-- A whole line for a fixed block word and next word. -/
theorem line_injective {l : Line w} (hl : l.Invertible) (k next : BitVec w) :
    Function.Injective fun h => returnLine l (foldLine l h k) next :=
  (returnLine_injective hl next).comp (foldLine_injective l k)

theorem mixV32_injective (k : W32) : Function.Injective fun h => mixV32 h k := by
  simp only [mixV32_eq_returnLine]
  exact line_injective (lines32_invertible lineV32 (by simp)) k 0

/-- Line 2 adds the new `h1`, so it gives back `h2`, and with it line 1 gives back `h1`. -/
theorem mixV128x64_injective (k : Pair) : Function.Injective fun h => mixV128x64 h k := by
  intro h g heq
  obtain ⟨hline1, hline2⟩ := Pair.mk.inj heq
  rw [hline1] at hline2
  have hw2 : h.w2 = g.w2 := line_injective (lines64_invertible lineX64w2 (by simp)) k.w2 _ hline2
  rw [hw2] at hline1
  have hw1 : h.w1 = g.w1 := line_injective (lines64_invertible lineX64w1 (by simp)) k.w1 _ hline1
  exact Pair.ext hw1 hw2

/-- Line 4 adds the new `h1` and so gives back `h4`; then lines 3, 2 and 1, each with the next word known. -/
theorem mixV128x86_injective (k : Quad) : Function.Injective fun h => mixV128x86 h k := by
  intro h g heq
  obtain ⟨hline1, hline2, hline3, hline4⟩ := Quad.mk.inj heq
  rw [hline1] at hline4
  have hw4 : h.w4 = g.w4 := line_injective (lines32_invertible lineX86w4 (by simp)) k.w4 _ hline4
  rw [hw4] at hline3
  have hw3 : h.w3 = g.w3 := line_injective (lines32_invertible lineX86w3 (by simp)) k.w3 _ hline3
  rw [hw3] at hline2
  have hw2 : h.w2 = g.w2 := line_injective (lines32_invertible lineX86w2 (by simp)) k.w2 _ hline2
  rw [hw2] at hline1
  have hw1 : h.w1 = g.w1 := line_injective (lines32_invertible lineX86w1 (by simp)) k.w1 _ hline1
  exact Quad.ext hw1 hw2 hw3 hw4

theorem finite_quad : Finite Quad :=
  Finite.of_injective (fun q => (q.w1, q.w2, q.w3, q.w4)) fun q r hqr => by
    simp only [Prod.mk.injEq] at hqr
    obtain ⟨h1, h2, h3, h4⟩ := hqr
    exact Quad.ext h1 h2 h3 h4

theorem finite_pair : Finite Pair :=
  Finite.of_injective (fun p => (p.w1, p.w2)) fun p r hpr => by
    simp only [Prod.mk.injEq] at hpr
    obtain ⟨h1, h2⟩ := hpr
    exact Pair.ext h1 h2

/-- Settles O32: each mixer loses nothing of a state, and there are finitely many states. -/
theorem mixersAreBijections : Obligations.MixersAreBijections := by
  have := finite_quad
  have := finite_pair
  exact ⟨fun k => Finite.injective_iff_bijective.mp (mixV32_injective k),
    fun k => Finite.injective_iff_bijective.mp (mixV128x86_injective k),
    fun k => Finite.injective_iff_bijective.mp (mixV128x64_injective k)⟩

/-- An avalanche: three shifted copies, with odd multipliers between them (R197, R198). -/
theorem avalanche_injective {c d : BitVec w} (hc : Odd c.toNat) (hd : Odd d.toNat) {i j k : Nat}
    (hi : 0 < i) (hj : 0 < j) (hk : 0 < k) :
    Function.Injective fun x => xorShift (xorShift (xorShift x i * c) j * d) k :=
  (xorShift_injective hk).comp <| (mul_left_injective_of_odd hd).comp <|
    (xorShift_injective hj).comp <| (mul_left_injective_of_odd hc).comp (xorShift_injective hi)

theorem fmix32_injective : Function.Injective fmix32 :=
  avalanche_injective (by decide) (by decide) (by decide) (by decide) (by decide)

theorem fmix64_injective : Function.Injective fmix64 :=
  avalanche_injective (by decide) (by decide) (by decide) (by decide) (by decide)

/-- Settles O34: shifted copies and odd multipliers lose nothing, and each operation keeps 0. -/
theorem avalanchesAreBijections : Obligations.AvalanchesAreBijections :=
  ⟨by decide, Finite.injective_iff_bijective.mp fmix32_injective,
    by decide, Finite.injective_iff_bijective.mp fmix64_injective⟩

/-- The later words give back themselves from the new `h1`, and the sum then gives back the old one (R201). -/
theorem propV128x86_injective : Function.Injective propV128x86 := by
  intro h g heq
  obtain ⟨hsum, h2, h3, h4⟩ := Quad.mk.inj heq
  rw [hsum, BitVec.add_left_inj] at h2 h3 h4
  rw [h2, h3, h4, BitVec.add_left_inj, BitVec.add_left_inj, BitVec.add_left_inj] at hsum
  exact Quad.ext hsum h2 h3 h4

theorem propV128x64_injective : Function.Injective propV128x64 := by
  intro h g heq
  obtain ⟨hsum, h2⟩ := Pair.mk.inj heq
  rw [hsum, BitVec.add_left_inj] at h2
  rw [h2, BitVec.add_left_inj] at hsum
  exact Pair.ext hsum h2

/-! Step 2 of FINALIZE loses nothing after the XOR of the length: equal results are equal words there. -/

theorem finMixV32_eq_iff (h g : W32) (t u : ByteCount) :
    finMixV32 h t = finMixV32 g u ↔ h ^^^ t.setWidth 32 = g ^^^ u.setWidth 32 :=
  fmix32_injective.eq_iff

theorem finMixV128x86_eq_iff (h g : Quad) (t u : ByteCount) :
    finMixV128x86 h t = finMixV128x86 g u ↔
      h.w1 ^^^ t.setWidth 32 = g.w1 ^^^ u.setWidth 32 ∧
      h.w2 ^^^ t.setWidth 32 = g.w2 ^^^ u.setWidth 32 ∧
      h.w3 ^^^ t.setWidth 32 = g.w3 ^^^ u.setWidth 32 ∧
      h.w4 ^^^ t.setWidth 32 = g.w4 ^^^ u.setWidth 32 := by
  rw [finMixV128x86, finMixV128x86, propV128x86_injective.eq_iff, Quad.mk.injEq,
    fmix32_injective.eq_iff, fmix32_injective.eq_iff, fmix32_injective.eq_iff,
    fmix32_injective.eq_iff, ← Quad.ext_iff, propV128x86_injective.eq_iff, Quad.mk.injEq]

theorem finMixV128x64_eq_iff (h g : Pair) (t u : ByteCount) :
    finMixV128x64 h t = finMixV128x64 g u ↔
      h.w1 ^^^ t.setWidth 64 = g.w1 ^^^ u.setWidth 64 ∧
      h.w2 ^^^ t.setWidth 64 = g.w2 ^^^ u.setWidth 64 := by
  rw [finMixV128x64, finMixV128x64, propV128x64_injective.eq_iff, Pair.mk.injEq,
    fmix64_injective.eq_iff, fmix64_injective.eq_iff, ← Pair.ext_iff, propV128x64_injective.eq_iff,
    Pair.mk.injEq]

theorem finMixV32_injective (t : ByteCount) : Function.Injective fun h => finMixV32 h t :=
  fun h g heq => (BitVec.xor_left_inj _).mp ((finMixV32_eq_iff h g t t).mp heq)

theorem finMixV128x86_injective (t : ByteCount) : Function.Injective fun h => finMixV128x86 h t := by
  intro h g heq
  have hwords := (finMixV128x86_eq_iff h g t t).mp heq
  simp only [BitVec.xor_left_inj] at hwords
  exact Quad.ext_iff.mpr hwords

theorem finMixV128x64_injective (t : ByteCount) : Function.Injective fun h => finMixV128x64 h t := by
  intro h g heq
  have hwords := (finMixV128x64_eq_iff h g t t).mp heq
  simp only [BitVec.xor_left_inj] at hwords
  exact Pair.ext_iff.mpr hwords

theorem finMix_initState_zero (v : Variant) : finMix (initState v 0) 0 = initState v 0 := by
  cases v with
  | v32 => decide
  | v128x86 => decide
  | v128x64 => decide

/-- Settles O35: the XOR of a fixed length, the propagations and the avalanches lose nothing of a state. -/
theorem finMixIsBijection : Obligations.FinMixIsBijection := by
  have := finite_quad
  have := finite_pair
  exact ⟨fun t => Finite.injective_iff_bijective.mp (finMixV32_injective t),
    fun t => Finite.injective_iff_bijective.mp (finMixV128x86_injective t),
    fun t => Finite.injective_iff_bijective.mp (finMixV128x64_injective t),
    fun t h => shapeOf_finMix h t, finMix_initState_zero⟩

/-- Two counts give the same `W`-bit word exactly when their low `W` bits agree (R200). -/
theorem setWidth_eq_iff (w : Nat) (t u : ByteCount) :
    t.setWidth w = u.setWidth w ↔ t.toNat % 2 ^ w = u.toNat % 2 ^ w := by
  rw [← BitVec.toNat_inj, BitVec.toNat_setWidth, BitVec.toNat_setWidth]

/-- Settles O39: for a fixed state the words after the XOR agree exactly when the length words do. -/
theorem lengthInjectionExact : Obligations.LengthInjectionExact := by
  intro h t u
  cases h with
  | v32 x =>
    rw [finMix, finMix, WordTuple.v32.injEq, finMixV32_eq_iff, BitVec.xor_right_inj]
    exact setWidth_eq_iff 32 t u
  | v128x86 q =>
    rw [finMix, finMix, WordTuple.v128x86.injEq, finMixV128x86_eq_iff]
    simp only [BitVec.xor_right_inj, and_self]
    exact setWidth_eq_iff 32 t u
  | v128x64 p =>
    rw [finMix, finMix, WordTuple.v128x64.injEq, finMixV128x64_eq_iff]
    simp only [BitVec.xor_right_inj, and_self]
    exact setWidth_eq_iff 64 t u

end Sys2Proof.Machine
end

section
/-! The tail fold as first halves of the mixer's lines on the padded tail (spec/43_finalize.md R195), and the digest of
the empty message (R206, R214). -/

namespace Sys2Proof.Machine

variable {w : Nat}

/-- A sub-word the tail does not reach is zero, and folding zero in changes nothing: the fold needs no case (R195). -/
theorem foldTail_eq_foldLine {lo n j : Nat} (hn : w / 8 = n) (hlo : (j - 1) * n = lo) (l : Line w)
    (t : List Byte) (h : BitVec w) :
    foldTail l t j h = foldLine l h (readWord w ((t.drop lo).take n)) := by
  rw [foldTail_eq hn hlo]
  split
  · rfl
  · have hempty : t.drop lo = [] := List.drop_of_length_le (by omega)
    have hzero : readWord w [] = 0 := rfl
    rw [hempty, List.take_nil, hzero, foldLine, kscr_zero]
    exact BitVec.xor_zero.symm

/-- A sub-word of the padded tail has the value of the bytes present (R117, R195). -/
theorem readWord_memRead_append_zeros (t : List Byte) (k lo n : Nat) :
    readWord w (memRead (t ++ List.replicate k 0) lo n) = readWord w ((t.drop lo).take n) := by
  rw [memRead, List.drop_append, List.take_append, List.drop_replicate, List.take_replicate,
    readWord_append_replicate_zero]

/-- Settles O37: each sub-word's fold is a first half on the word of the padded tail at its place. -/
theorem tailFoldIsPaddedFirstHalves : Obligations.TailFoldIsPaddedFirstHalves := by
  refine ⟨fun h t ht => ?v32, fun h t k ht hk => ?v128x86, fun h t k ht hk => ?v128x64⟩
  case v32 =>
    rw [tailFoldV32, rdblkV32, readWord_memRead_append_zeros,
      foldTail_eq_foldLine (lo := 0) (n := 4) rfl rfl]
  case v128x86 =>
    rw [tailFoldV128x86, hk, rdblkV128x86]
    simp only [readWord_memRead_append_zeros]
    rw [foldTail_eq_foldLine (lo := 0) (n := 4) rfl rfl,
      foldTail_eq_foldLine (lo := 4) (n := 4) rfl rfl, foldTail_eq_foldLine (lo := 8) (n := 4) rfl rfl,
      foldTail_eq_foldLine (lo := 12) (n := 4) rfl rfl]
  case v128x64 =>
    rw [tailFoldV128x64, hk, rdblkV128x64]
    simp only [readWord_memRead_append_zeros]
    rw [foldTail_eq_foldLine (lo := 0) (n := 8) rfl rfl,
      foldTail_eq_foldLine (lo := 8) (n := 8) rfl rfl]

/-- The empty tail reaches no sub-word (R191). -/
@[simp] theorem foldTail_nil (l : Line w) (j : Nat) (h : BitVec w) : foldTail l [] j h = h := by
  simp [foldTail]

theorem tailFold_nil (h : WordTuple) : tailFold h [] = h := by
  cases h with
  | v32 x => simp [tailFold, tailFoldV32]
  | v128x86 q => simp [tailFold, tailFoldV128x86]
  | v128x64 p => simp [tailFold, tailFoldV128x64]

/-- The empty message is finalized from its initial state (R214). -/
theorem oneShotDigest_nil (v : Variant) (seed : W32) :
    oneShotDigest v seed [] = wrwords (finMix (initState v seed) 0) := by
  rw [oneShotDigest, mixMessage_of_short (blockSize_pos v), messageTail_of_short (blockSize_pos v),
    tailFold_nil]
  rfl

/-- In one shape, words that are written alike are equal: they are read back (R118). -/
theorem wrwords_inj {x y : WordTuple} (hshape : shapeOf x = shapeOf y) : wrwords x = wrwords y ↔ x = y := by
  refine ⟨fun h => ?_, congrArg wrwords⟩
  rw [← rdblk_wrwords x, ← rdblk_wrwords y, hshape, h]

/-- Zero-extending a seed loses nothing of it (R24). -/
theorem setWidth_64_injective : Function.Injective fun seed : W32 => seed.setWidth 64 := by
  intro x y hxy
  have hnat : (x.setWidth 64).toNat = (y.setWidth 64).toNat := congrArg BitVec.toNat hxy
  rw [BitVec.toNat_setWidth_of_le (by decide), BitVec.toNat_setWidth_of_le (by decide)] at hnat
  exact BitVec.eq_of_toNat_eq hnat

/-- Step 2 on an initial state loses nothing of the seed (R24, R206). -/
theorem finMix_initState_inj (v : Variant) (t : ByteCount) {seed seed' : W32} :
    finMix (initState v seed) t = finMix (initState v seed') t ↔ seed = seed' := by
  refine ⟨fun h => ?_, congrArg fun x => finMix (initState v x) t⟩
  cases v with
  | v32 => exact finMixV32_injective t (WordTuple.v32.inj h)
  | v128x86 => exact congrArg Quad.w1 (finMixV128x86_injective t (WordTuple.v128x86.inj h))
  | v128x64 =>
    exact setWidth_64_injective
      (congrArg Pair.w1 (finMixV128x64_injective t (WordTuple.v128x64.inj h)))

theorem wrwords_initState_zero (v : Variant) :
    wrwords (initState v 0) = List.replicate (hashSize v) 0 := by
  cases v <;> rfl

/-- Settles O50: writing, step 2 and `INITSTATE` lose nothing, and all three take 0 to 0. -/
theorem emptyMessageZeroIffSeedZero : Obligations.EmptyMessageZeroIffSeedZero := by
  intro v seed
  have hshape : shapeOf (finMix (initState v seed) 0) = shapeOf (finMix (initState v 0) 0) := by
    rw [shapeOf_finMix, shapeOf_finMix, shapeOf_initState, shapeOf_initState]
  rw [oneShotDigest_nil, ← wrwords_initState_zero, ← finMix_initState_zero, wrwords_inj hshape,
    finMix_initState_inj]

end Sys2Proof.Machine
end
